-- ==== Sys2Proof/Word.lean ====
section
/-! DEFINITION. The widths of the CORE (spec/00_scope.md R7, spec/30_encoding.md R80): bytes, 16-bit words, 12-bit
addresses of the field nnn, and the indices that a 4-bit opcode field names. -/

namespace Sys2Proof

/-- A general register, a timer or a byte of memory: 8 bits (R7, R21). -/
abbrev Byte := BitVec 8

/-- An opcode, PC, I or a stack slot: 16 bits (R7, R24, R27, R29). -/
abbrev Word := BitVec 16

/-- The address field nnn: 12 bits (R80). -/
abbrev Addr12 := BitVec 12

/-- What a 4-bit field counts or names: a register, a key or a sprite height, 0 to 15 (R8, R82). -/
abbrev Nibble := Fin 16

end Sys2Proof
end

