-- ==== Sys2Proof/Syntax.lean ====
section
/-! DEFINITION. The instructions: one constructor for each row of spec/opcode_table.json, with the operands of
spec/30_encoding.md R80 to R85. A constructor's operands have exactly the field's width, so no index can be out of range (R8). -/

namespace Sys2Proof

/-- The 20 instructions of R85 and the catch-all `notImplemented`, which carries the whole word (R83). -/
inductive Instr where
  /-- 00EE, R140. -/
  | ret
  /-- 1nnn, R141. -/
  | jump (nnn : Addr12)
  /-- 2nnn, R142. -/
  | call (nnn : Addr12)
  /-- 3xkk, R143. -/
  | skipIfEqual (x : Nibble) (kk : Byte)
  /-- 4xkk, R144. -/
  | skipIfNotEqual (x : Nibble) (kk : Byte)
  /-- 6xkk, R160. -/
  | loadConstant (x : Nibble) (kk : Byte)
  /-- 7xkk, R161. -/
  | addConstant (x : Nibble) (kk : Byte)
  /-- 8xy0, R162. -/
  | load (x y : Nibble)
  /-- 8xy2, R163. -/
  | and (x y : Nibble)
  /-- 8xy4, R164. -/
  | add (x y : Nibble)
  /-- 8xy5, R165. -/
  | sub (x y : Nibble)
  /-- Annn, R190. -/
  | setAddress (nnn : Addr12)
  /-- Cxkk, R166. -/
  | randomAnd (x : Nibble) (kk : Byte)
  /-- Dxyn, R210. -/
  | draw (x y n : Nibble)
  /-- ExA1, R230: x names the key flag itself. -/
  | skipIfNotPressed (x : Nibble)
  /-- Fx07, R231. -/
  | loadDelay (x : Nibble)
  /-- Fx15, R232. -/
  | setDelay (x : Nibble)
  /-- Fx29, R193. -/
  | setFontLocation (x : Nibble)
  /-- Fx33, R196. -/
  | setBCD (x : Nibble)
  /-- Fx65, R199. -/
  | loadRegisters (x : Nibble)
  /-- Any other word, R86, R120. -/
  | notImplemented (op : Word)
  deriving DecidableEq, Repr

end Sys2Proof
end

