-- ==== Sys2Proof/WellFormed.lean ====
section
/-! DEFINITION. Which terms of `Instr` stand for a word of the CORE. The operands' types already hold each field to its
width (spec/30_encoding.md R80, R82), so one check is left: a `notImplemented` carries a word of the unassigned space of R86. -/

namespace Sys2Proof

/-- The whole unassigned space as R86 lists it, range by range. -/
def unassignedWord (op : Word) : Bool :=
  let n := op.toNat
  (n < 0x1000 && n != 0x00EE)
    || (0x5000 ≤ n && n < 0x6000)
    || (0x9000 ≤ n && n < 0xA000)
    || (0xB000 ≤ n && n < 0xC000)
    || (0x8000 ≤ n && n < 0x9000 && ! [0x0, 0x2, 0x4, 0x5].contains (n % 0x10))
    || (0xE000 ≤ n && n < 0xF000 && n % 0x100 != 0xA1)
    || (0xF000 ≤ n && ! [0x07, 0x15, 0x29, 0x33, 0x65].contains (n % 0x100))

/-- R85, R86: every defined variant is well formed by its types; the catch-all stands only for an unassigned word. -/
def Instr.wellFormed : Instr → Bool
  | .ret => true
  | .jump _ => true
  | .call _ => true
  | .skipIfEqual _ _ => true
  | .skipIfNotEqual _ _ => true
  | .loadConstant _ _ => true
  | .addConstant _ _ => true
  | .load _ _ => true
  | .and _ _ => true
  | .add _ _ => true
  | .sub _ _ => true
  | .setAddress _ => true
  | .randomAnd _ _ => true
  | .draw _ _ _ => true
  | .skipIfNotPressed _ => true
  | .loadDelay _ => true
  | .setDelay _ => true
  | .setFontLocation _ => true
  | .setBCD _ => true
  | .loadRegisters _ => true
  | .notImplemented op => unassignedWord op

end Sys2Proof
end

