-- ==== Sys2Proof/Decode.lean ====
section
/-! DEFINITION. The decoder of spec/30_encoding.md R83, R84 on words and on bytes, the opcode map of R85 as a table, and
after them the encoder, written from the same patterns. -/

namespace Sys2Proof

/-! ## Fields (R10, R80) -/

/-- The field of `len` bits whose lowest bit is bit `lo`, as an unsigned number (R10). -/
def field (op : Word) (lo len : Nat) : Nat := op.toNat / 2 ^ lo % 2 ^ len

/-- op[15:12]: the instruction family. -/
def familyOf (op : Word) : Nat := field op 12 4

/-- op[11:8]: the index x. -/
def xOf (op : Word) : Nibble := ⟨field op 8 4, Nat.mod_lt _ (by decide)⟩

/-- op[7:4]: the index y. -/
def yOf (op : Word) : Nibble := ⟨field op 4 4, Nat.mod_lt _ (by decide)⟩

/-- op[3:0]: the count n. -/
def nOf (op : Word) : Nibble := ⟨field op 0 4, Nat.mod_lt _ (by decide)⟩

/-- op[7:0]: the constant kk. -/
def kkOf (op : Word) : Byte := BitVec.ofNat 8 (field op 0 8)

/-- op[11:0]: the address nnn. -/
def nnnOf (op : Word) : Addr12 := BitVec.ofNat 12 (field op 0 12)

/-! ## The decoder -/

/-- Family 8: the function is the nibble n (R81 layout XYF, R84). -/
def decodeFamily8 (op : Word) : Instr :=
  match field op 0 4 with
  | 0x0 => .load (xOf op) (yOf op)
  | 0x2 => .and (xOf op) (yOf op)
  | 0x4 => .add (xOf op) (yOf op)
  | 0x5 => .sub (xOf op) (yOf op)
  | _ => .notImplemented op

/-- Family F: the function is the byte kk (R81 layout XFF, R84). -/
def decodeFamilyF (op : Word) : Instr :=
  match field op 0 8 with
  | 0x07 => .loadDelay (xOf op)
  | 0x15 => .setDelay (xOf op)
  | 0x29 => .setFontLocation (xOf op)
  | 0x33 => .setBCD (xOf op)
  | 0x65 => .loadRegisters (xOf op)
  | _ => .notImplemented op

/-- R83, R84: the total decoder from a 16-bit opcode to one variant; it reads no state and never fails. -/
def decodeWord (op : Word) : Instr :=
  match familyOf op with
  | 0x0 => if op = 0x00EE#16 then .ret else .notImplemented op
  | 0x1 => .jump (nnnOf op)
  | 0x2 => .call (nnnOf op)
  | 0x3 => .skipIfEqual (xOf op) (kkOf op)
  | 0x4 => .skipIfNotEqual (xOf op) (kkOf op)
  | 0x6 => .loadConstant (xOf op) (kkOf op)
  | 0x7 => .addConstant (xOf op) (kkOf op)
  | 0x8 => decodeFamily8 op
  | 0xA => .setAddress (nnnOf op)
  | 0xC => .randomAnd (xOf op) (kkOf op)
  | 0xD => .draw (xOf op) (yOf op) (nOf op)
  | 0xE => if field op 0 8 = 0xA1 then .skipIfNotPressed (xOf op) else .notImplemented op
  | 0xF => decodeFamilyF op
  | _ => .notImplemented op

/-- R50: the 16-bit word of two bytes, the first one high. -/
def wordOfBytes (hi lo : Byte) : Word := BitVec.ofNat 16 (hi.toNat * 256 + lo.toNat)

/-- R50: the bytes of a word as memory holds them, high byte first. -/
def bytesOfWord (op : Word) : List Byte :=
  [BitVec.ofNat 8 (op.toNat / 256), BitVec.ofNat 8 op.toNat]

/-- Why bytes are no instruction: the only way is that there are fewer than two of them (R80, R83, R89). -/
inductive DecodeError where
  /-- Only `have_` bytes are left; an instruction is 2 bytes. Raised by `decode`. Safe: no meaning is given to such bytes. -/
  | truncated (have_ : Nat)
  deriving DecidableEq, Repr

/-- Decoding on any bytes: the first instruction and the bytes after it (R80, R83, R89). -/
def decode : List Byte → Except DecodeError (Instr × List Byte)
  | hi :: lo :: rest => .ok (decodeWord (wordOfBytes hi lo), rest)
  | [_] => .error (.truncated 1)
  | [] => .error (.truncated 0)

/-- The decoder on a word numbered as spec/opcode_table.json numbers it: `nbits` bits of `w`, the bits above them 0, laid
out high byte first. -/
def decodeTableWord (nbits w : Nat) : Option Instr :=
  match decode (bytesOfWord (BitVec.ofNat 16 (w % 2 ^ nbits))) with
  | .ok (i, _) => some i
  | .error _ => none

/-! ## The opcode map (R85) -/

/-- The source's variant name, which is the mnemonic (R17, R85, R90). -/
def Instr.mnemonic : Instr → String
  | .ret => "Return"
  | .jump _ => "Jump"
  | .call _ => "Call"
  | .skipIfEqual _ _ => "SkipIfEqual"
  | .skipIfNotEqual _ _ => "SkipIfNotEqual"
  | .loadConstant _ _ => "LoadConstant"
  | .addConstant _ _ => "AddConstant"
  | .load _ _ => "Load"
  | .and _ _ => "And"
  | .add _ _ => "Add"
  | .sub _ _ => "Sub"
  | .setAddress _ => "SetAddress"
  | .randomAnd _ _ => "RandomAnd"
  | .draw _ _ _ => "Draw"
  | .skipIfNotPressed _ => "SkipIfNotPressed"
  | .loadDelay _ => "LoadDelay"
  | .setDelay _ => "SetDelay"
  | .setFontLocation _ => "SetFontLocation"
  | .setBCD _ => "SetBCD"
  | .loadRegisters _ => "LoadRegisters"
  | .notImplemented _ => "NotImplemented"

/-- One row of the opcode map: its mnemonic and its match and mask columns. -/
structure OpcodeRow where
  mnemonic : String
  code : Word
  mask : Word
  deriving DecidableEq, Repr

/-- The 20 defined rows of R85. -/
def opcodeTable : List OpcodeRow :=
  [⟨"Return", 0x00EE, 0xFFFF⟩, ⟨"Jump", 0x1000, 0xF000⟩, ⟨"Call", 0x2000, 0xF000⟩,
    ⟨"SkipIfEqual", 0x3000, 0xF000⟩, ⟨"SkipIfNotEqual", 0x4000, 0xF000⟩]
  ++ [⟨"LoadConstant", 0x6000, 0xF000⟩, ⟨"AddConstant", 0x7000, 0xF000⟩, ⟨"Load", 0x8000, 0xF00F⟩,
    ⟨"And", 0x8002, 0xF00F⟩, ⟨"Add", 0x8004, 0xF00F⟩, ⟨"Sub", 0x8005, 0xF00F⟩]
  ++ [⟨"SetAddress", 0xA000, 0xF000⟩, ⟨"RandomAnd", 0xC000, 0xF000⟩, ⟨"Draw", 0xD000, 0xF000⟩,
    ⟨"SkipIfNotPressed", 0xE0A1, 0xF0FF⟩]
  ++ [⟨"LoadDelay", 0xF007, 0xF0FF⟩, ⟨"SetDelay", 0xF015, 0xF0FF⟩, ⟨"SetFontLocation", 0xF029, 0xF0FF⟩,
    ⟨"SetBCD", 0xF033, 0xF0FF⟩, ⟨"LoadRegisters", 0xF065, 0xF0FF⟩]

/-- R85: a word selects a row when `op & mask == match`. -/
def OpcodeRow.selects (r : OpcodeRow) (op : Word) : Bool := op &&& r.mask == r.code

/-! ## The encoder -/

/-- Layout NNN of R81. -/
def encodeNNN (family : Nat) (nnn : Addr12) : Word := BitVec.ofNat 16 (family * 0x1000 + nnn.toNat)

/-- Layout XKK of R81. -/
def encodeXKK (family : Nat) (x : Nibble) (kk : Byte) : Word :=
  BitVec.ofNat 16 (family * 0x1000 + x.val * 0x100 + kk.toNat)

/-- Layouts XYF and XYN of R81. -/
def encodeXYN (family : Nat) (x y : Nibble) (n : Nat) : Word :=
  BitVec.ofNat 16 (family * 0x1000 + x.val * 0x100 + y.val * 0x10 + n)

/-- Layout XFF of R81. -/
def encodeXFF (family : Nat) (x : Nibble) (function : Nat) : Word :=
  BitVec.ofNat 16 (family * 0x1000 + x.val * 0x100 + function)

/-- The word of an instruction, from the patterns of R81 and R85. -/
def encode : Instr → Word
  | .ret => 0x00EE#16
  | .jump nnn => encodeNNN 0x1 nnn
  | .call nnn => encodeNNN 0x2 nnn
  | .skipIfEqual x kk => encodeXKK 0x3 x kk
  | .skipIfNotEqual x kk => encodeXKK 0x4 x kk
  | .loadConstant x kk => encodeXKK 0x6 x kk
  | .addConstant x kk => encodeXKK 0x7 x kk
  | .load x y => encodeXYN 0x8 x y 0x0
  | .and x y => encodeXYN 0x8 x y 0x2
  | .add x y => encodeXYN 0x8 x y 0x4
  | .sub x y => encodeXYN 0x8 x y 0x5
  | .setAddress nnn => encodeNNN 0xA nnn
  | .randomAnd x kk => encodeXKK 0xC x kk
  | .draw x y n => encodeXYN 0xD x y n.val
  | .skipIfNotPressed x => encodeXFF 0xE x 0xA1
  | .loadDelay x => encodeXFF 0xF x 0x07
  | .setDelay x => encodeXFF 0xF x 0x15
  | .setFontLocation x => encodeXFF 0xF x 0x29
  | .setBCD x => encodeXFF 0xF x 0x33
  | .loadRegisters x => encodeXFF 0xF x 0x65
  | .notImplemented op => op

/-- The two bytes of an instruction as memory holds them (R50). -/
def encodeBytes (i : Instr) : List Byte := bytesOfWord (encode i)

end Sys2Proof
end

