-- ==== Sys2Proof/Config.lean ====
section
/-! DEFINITION. What the spec leaves to the implementation or to the host and gives no value for: the 80 font bytes
(spec/00_scope.md R7 parameter FONT, spec/92_eei_decisions.md D14) and the random bytes (R7 parameter RNG, D10).
Both are opaque: nothing can evaluate them or prove a value of one. -/

namespace Sys2Proof

/-- The parameter FONT of R7: the byte the reset state holds at each of the addresses 0 to 79 (R59, R261). The source
gives the size and the place, not the bytes (D14, N10). The bytes stay free (mark: DEDUCED from D14); notes/assumptions/2.md. Safe. -/
opaque Config.font : Fin 80 → Byte

/-- The random byte the host supplies with the n-th step (R110, R166, R264): any 8-bit value, under no law (D10).
Mark: a free value; notes/assumptions/1.md. Safe. -/
opaque Config.randomByte : Nat → Byte

end Sys2Proof
end

