-- ==== Sys2Proof/Machine/State.lean ====
section
/-! DEFINITION. The state of the CORE (spec/10_state.md R20 to R36), plain data, and its reset value (R37), with the
fault values of spec/60_exceptions.md R250 and the two reasons a step can answer no next state. -/

namespace Sys2Proof.Machine

/-- The five faults of R250, each with the info it records. A fault is raised by writing the latch FAULT (R118): the
step that raises one answers a next state. -/
inductive CoreFault where
  /-- Code 1: raised by the execute of `NotImplemented`; carries the word (R120). -/
  | instructionNotImplemented (op : Word)
  /-- Code 2: raised by Call with SP = 16 (R142). -/
  | stackOverflow
  /-- Code 3: raised by Return with SP = 0 (R140). -/
  | stackUnderflow
  /-- Code 4: raised by Draw, SetBCD and LoadRegisters; carries the highest address the access would touch (R56). -/
  | memoryOutOfBounds (addr : Word)
  /-- Code 5: raised by the fetch; carries the PC (R111). -/
  | fetchOutOfBounds (pc : Word)
  deriving DecidableEq, Repr

/-- Why the machine stops. -/
inductive Fault where
  /-- Raised by `step` alone, when FAULT is already set: the CORE takes no step (R121, R264), so there is no next state.
  `cause` is the latched fault. Safe: the spec gives a halted CORE no step, so no run is lost (notes/assumptions/4.md). -/
  | halted (cause : CoreFault)
  deriving DecidableEq, Repr

/-- Why an instruction has no meaning. -/
inductive Refusal where
  /-- Raised by an arm of `exec` whose instruction has no meaning yet; no arm of this model does. Safe: such a run stops. -/
  | notModelled (mnemonic : String)
  deriving DecidableEq, Repr

/-- The framebuffer: 32 rows of 64 one-bit cells, true for on (R35, D25). -/
abbrev Framebuffer := Vector (Vector Bool 64) 32

/-- The 16 key flags, true for pressed (R35). -/
abbrev Keys := Vector Bool 16

/-- Memory: (address, byte) pairs in the canonical form of `Memory.wf` (Machine/Ops.lean). -/
abbrev Memory := List Host.Cell

/-- Everything the spec gives the CORE (R20), and two fields of the model's own for the host's inputs. -/
structure State where
  /-- V[0] to V[15]; V[15] is VF (R21, R32). -/
  v : Vector Byte 16
  /-- The index register I (R27). -/
  i : Word
  /-- The program counter (R24). -/
  pc : Word
  /-- The stack pointer, the next free slot: 0 to 16 (R30, D28). -/
  sp : Fin 17
  /-- STACK[0] to STACK[15] (R29). -/
  stack : Vector Word 16
  /-- The delay timer (R31). -/
  dt : Byte
  /-- The sound timer (R31). -/
  st : Byte
  /-- The 4096 bytes of memory (R34). -/
  mem : Memory
  /-- The framebuffer (R35). -/
  fb : Framebuffer
  /-- The key flags (R35). -/
  keys : Keys
  /-- The fault latch (R36). -/
  fault : Option CoreFault
  /-- MODEL'S OWN: how many random bytes the host has supplied; the step's rnd is `Config.randomByte` of it
  (R110, D10, notes/assumptions/1.md). -/
  rndIndex : Nat
  /-- MODEL'S OWN: the key flags the host will write before each of the coming steps, oldest first; when the list is
  empty the host writes none (R266, D19, notes/assumptions/3.md). -/
  pendingKeys : List Keys
  deriving DecidableEq, Repr

/-- R37, R290: every field zeroed except PC = 0x200, and memory with nothing listed (the font bytes are what an unlisted
address of 0 to 79 reads as). -/
def State.reset : State where
  v := Vector.replicate 16 0
  i := 0
  pc := 0x200
  sp := 0
  stack := Vector.replicate 16 0
  dt := 0
  st := 0
  mem := []
  fb := Vector.replicate 32 (Vector.replicate 64 false)
  keys := Vector.replicate 16 false
  fault := none
  rndIndex := 0
  pendingKeys := []

end Sys2Proof.Machine
end

