-- ==== Sys2Proof/Machine/Ops.lean ====
section
/-! DEFINITION. The named operations over memory, registers, stack and framebuffer, raising a fault, the fetch, and the
timer update: what the meanings and the step are written in. -/

namespace Sys2Proof.Machine

/-! ## Memory (spec/20_memory.md) -/

/-- What an address that nothing has written reads as: FONT at 0 to 79, else 0 (R37, R58, R59; notes/assumptions/2.md). -/
def Memory.unlisted (a : Nat) : Byte := if h : a < 80 then Config.font ⟨a, h⟩ else 0

/-- The byte at an address (R13, R57). -/
def Memory.read : Memory → Nat → Byte
  | [], a => Memory.unlisted a
  | (b, w) :: m, a => if a = b then w else Memory.read m a

/-- Put a byte in front of the cells of higher addresses, unless it is what the address reads as unlisted. -/
def Memory.put (a : Nat) (v : Byte) (m : Memory) : Memory :=
  if v = Memory.unlisted a then m else (a, v) :: m

/-- Set the byte at an address (R13), keeping the canonical form. -/
def Memory.write : Memory → Nat → Byte → Memory
  | [], a, v => Memory.put a v []
  | (b, w) :: m, a, v =>
    if a < b then Memory.put a v ((b, w) :: m)
    else if a = b then Memory.put a v m
    else (b, w) :: Memory.write m a v

/-- The canonical form: addresses strictly rising, each inside the 4096-byte space (R53), no entry equal to what the
unlisted address reads as. -/
abbrev Memory.wf (m : Memory) : Prop :=
  m.Pairwise (fun p q => p.1 < q.1) ∧ ∀ c ∈ m, c.1 < 4096 ∧ c.2 ≠ Memory.unlisted c.1

/-- R13, R56: an access of `n` bytes at `a` stays inside the 4096 bytes, in exact arithmetic, no wrap (the spec's decision D3;
mark: DEDUCED, safe, notes/assumptions/7.md). -/
def inBounds (a n : Nat) : Bool := a + n ≤ 4096

/-- R56: the check of an instruction that reaches `n` bytes through I at `a`: a count of 0 never faults (R56, R210). -/
def dataInBounds (a n : Nat) : Bool := n == 0 || inBounds a n

/-- MemRead of R13. -/
def State.loadByte (s : State) (a : Nat) : Byte := Memory.read s.mem a

/-- MemWrite of R13. -/
def State.storeByte (s : State) (a : Nat) (b : Byte) : State := { s with mem := Memory.write s.mem a b }

/-! ## Registers (spec/10_state.md R21 to R31) -/

/-- V[x]: every register is readable (R21). -/
def State.reg (s : State) (x : Nibble) : Byte := s.v[x.val]

/-- V[x] <- b: every register is writable (R21). -/
def State.setReg (s : State) (x : Nibble) (b : Byte) : State := { s with v := s.v.set x.val b }

/-- The index of VF (R21, R32). -/
def vf : Nibble := 15

/-- I <- w (R27). -/
def State.setIndex (s : State) (w : Word) : State := { s with i := w }

/-- DT <- b (R31). -/
def State.setDelayTimer (s : State) (b : Byte) : State := { s with dt := b }

/-- PC <- w, with nothing added (R117). -/
def State.setPc (s : State) (w : Word) : State := { s with pc := w }

/-- The default advance of R115: PC <- PC + 2, at 16 bits (exact in every reachable state, R26; mark: DESIGN CHOICE for
PC above 0xFFFD, unsafe, notes/assumptions/9.md). -/
def State.advance (s : State) : State := s.setPc (s.pc + 2)

/-- A skip, R116: 2 more on top of the default when the condition holds. -/
def State.skipIf (s : State) (c : Bool) : State := s.setPc (if c then s.pc + 4 else s.pc + 2)

/-- The block load of R199: V[0] to V[n-1] from the addresses `base`, `base + 1`, ..., V[0] first. -/
def loadBlock (m : Memory) (base : Nat) : Nat → Vector Byte 16 → Vector Byte 16
  | 0, v => v
  | k + 1, v => (loadBlock m base k v).setIfInBounds k (Memory.read m (base + k))

/-! ## Stack (spec/10_state.md R29, R30) -/

/-- STACK[SP] <- w, SP <- SP + 1: the new stack and stack pointer, or none when SP = 16 (R142). -/
def State.push (s : State) (w : Word) : Option State :=
  if h : s.sp.val < 16 then
    some { s with stack := s.stack.set s.sp.val w, sp := ⟨s.sp.val + 1, by omega⟩ }
  else none

/-- SP <- SP - 1, then STACK[SP], the slot keeping its value (D13): or none when SP = 0 (R140). -/
def State.pop (s : State) : Option (Word × State) :=
  if h : s.sp.val = 0 then none
  else some (s.stack[s.sp.val - 1], { s with sp := ⟨s.sp.val - 1, by omega⟩ })

/-! ## Framebuffer (R35) -/

/-- FB[r][c]. -/
def Framebuffer.cell (fb : Framebuffer) (r : Fin 32) (c : Fin 64) : Bool := fb[r.val][c.val]

/-- FB[r][c] <- b. -/
def Framebuffer.setCell (fb : Framebuffer) (r : Fin 32) (c : Fin 64) (b : Bool) : Framebuffer :=
  fb.set r.val (fb[r.val].set c.val b)

/-! ## Faults and the timer update -/

/-- Raising a fault, the ONE way any fault is taken (R14, R118): the latch is written and nothing else. There is no trap
entry, no handler and no return from a fault (R254, R255). The step that raises answers a next state (mark: DEDUCED from
R118 and D1, safe, notes/assumptions/4.md). -/
def State.raise (s : State) (f : CoreFault) : State := { s with fault := some f }

/-- A timer one step later: decremented, stopping at zero (R119). -/
def countDown (t : Byte) : Byte := if t.toNat > 0 then t - 1 else t

/-- R119: both timers count down once. -/
def State.timerUpdate (s : State) : State := { s with dt := countDown s.dt, st := countDown s.st }

/-! ## What a step does around an instruction (spec/40_step_engine.md R110) -/

/-- The host's key write before the step, if one is pending (R266; mark: DESIGN CHOICE for the list, safe over all states,
notes/assumptions/3.md). -/
def State.takeKeys (s : State) : State :=
  match s.pendingKeys with
  | [] => s
  | k :: ks => { s with keys := k, pendingKeys := ks }

/-- R50, R111: the word at PC, high byte first; none when PC + 1 > 0xFFF. An odd PC is fetched (R52, the spec's decision D6;
mark: DEDUCED, unsafe, notes/assumptions/6.md). -/
def State.fetch (s : State) : Option Word :=
  if inBounds s.pc.toNat 2 then some (wordOfBytes (s.loadByte s.pc.toNat) (s.loadByte (s.pc.toNat + 1))) else none

/-- The random byte of the current step, a free value (R110, D10; mark: DESIGN CHOICE for the counter, safe,
notes/assumptions/1.md). -/
def State.rnd (s : State) : Byte := Config.randomByte s.rndIndex

/-- After the execute: nothing more when it raised a fault (R118); else the timer update (R119), and the next step has
a new random byte (R264). -/
def State.complete (s : State) : State :=
  match s.fault with
  | some _ => s
  | none => { s.timerUpdate with rndIndex := s.rndIndex + 1 }

end Sys2Proof.Machine
end

