-- ==== Sys2Proof/Machine/Operands.lean ====
section
/-! DEFINITION. The operand forms: the zero-extended address field (spec/30_encoding.md R82), the one data addressing
mode I + k (spec/43_address_memory.md R200), the font address, the decimal digits, and the sprite's bits and coordinates
(spec/44_draw.md R210, R211). A register or constant operand needs no form of its own: it is `State.reg` or the field. -/

namespace Sys2Proof.Machine

/-- zext_16(nnn) (R82). -/
def zext16 (nnn : Addr12) : Word := nnn.setWidth 16

/-- The data address I + k, exact, no wrap (R55, R200). -/
def State.dataAddr (s : State) (k : Nat) : Nat := s.i.toNat + k

/-- The info of MemoryOutOfBounds: the highest address an access of `n` bytes at I would touch (R56), as its 16 bits
(mark: DESIGN CHOICE for I above 0xFFF0, which no run reaches, unsafe, notes/assumptions/9.md). -/
def State.highestAddr (s : State) (n : Nat) : Word := BitVec.ofNat 16 (s.i.toNat + n - 1)

/-- zext_16(a) * 5 at 16 bits (R193, the spec's decision D11; mark: DEDUCED, unsafe for a above 51, notes/assumptions/7.md). -/
def fontAddr (a : Byte) : Word := a.setWidth 16 * 5

/-- The hundreds of R196: v / 100. -/
def bcdHundreds (v : Byte) : Byte := BitVec.ofNat 8 (v.toNat / 100)

/-- The tens of R196: (v % 100) / 10. -/
def bcdTens (v : Byte) : Byte := BitVec.ofNat 8 (v.toNat % 100 / 10)

/-- The ones of R196: v % 10. -/
def bcdOnes (v : Byte) : Byte := BitVec.ofNat 8 (v.toNat % 10)

/-- Bit 7 - j of a sprite row: bit 7 is the leftmost pixel (R210, R212). -/
def spriteBit (row : Byte) (j : Nat) : Bool := row.getLsbD (7 - j)

/-- The row (yc + i) mod 32 (R211). -/
def pixelRow (yc : Byte) (i : Nat) : Fin 32 := ⟨(yc.toNat + i) % 32, Nat.mod_lt _ (by decide)⟩

/-- The column (xc + j) mod 64 (R211). -/
def pixelCol (xc : Byte) (j : Nat) : Fin 64 := ⟨(xc.toNat + j) % 64, Nat.mod_lt _ (by decide)⟩

end Sys2Proof.Machine
end

