-- ==== Sys2Proof/Machine/Address.lean ====
section
/-! DEFINITION. Meanings: SetAddress, SetFontLocation, SetBCD, LoadRegisters (spec/43_address_memory.md). The two that
reach memory check their bounds before the first access (spec/20_memory.md R56) and leave I unchanged (D12). -/

namespace Sys2Proof.Machine

/-- R190. -/
def execSetAddress (nnn : Addr12) (s : State) : Host.Outcome State Fault Refusal :=
  .next (s.setIndex (zext16 nnn)).advance

/-- R193: the whole register times 5. -/
def execSetFontLocation (x : Nibble) (s : State) : Host.Outcome State Fault Refusal :=
  .next (s.setIndex (fontAddr (s.reg x))).advance

/-- R196. -/
def execSetBCD (x : Nibble) (s : State) : Host.Outcome State Fault Refusal :=
  if dataInBounds s.i.toNat 3 then
    .next ((((s.storeByte (s.dataAddr 0) (bcdHundreds (s.reg x))).storeByte (s.dataAddr 1)
      (bcdTens (s.reg x))).storeByte (s.dataAddr 2) (bcdOnes (s.reg x))).advance)
  else .next (s.raise (.memoryOutOfBounds (s.highestAddr 3)))

/-- R199. -/
def execLoadRegisters (x : Nibble) (s : State) : Host.Outcome State Fault Refusal :=
  if dataInBounds s.i.toNat (x.val + 1) then
    .next ({ s with v := loadBlock s.mem (s.dataAddr 0) (x.val + 1) s.v } : State).advance
  else .next (s.raise (.memoryOutOfBounds (s.highestAddr (x.val + 1))))

end Sys2Proof.Machine
end

