-- ==== Sys2Proof/Machine/Flags.lean ====
section
/-! DEFINITION. The three computations of VF, the only flag (spec/10_state.md R32): carry of Add, comparison of Sub,
collision of Draw. -/

namespace Sys2Proof.Machine

/-- A flag as the byte VF holds: 1 or 0 (R32). -/
def flagByte (b : Bool) : Byte := if b then 1 else 0

/-- Add: the exact sum exceeds 255 (R164). -/
def carryFlag (a b : Byte) : Byte := flagByte (a.toNat + b.toNat > 255)

/-- Sub: a > b, strictly (R165). -/
def greaterFlag (a b : Byte) : Byte := flagByte (a.toNat > b.toNat)

/-- Draw: some cell held 1 and received a 1 (R212). -/
def collisionFlag (hit : Bool) : Byte := flagByte hit

/-- VF <- flag, the last register write of its instruction (R23, the spec's decision D7; mark: DEDUCED, unsafe for x = 15,
notes/assumptions/6.md). -/
def State.setFlag (s : State) (flag : Byte) : State := s.setReg vf flag

end Sys2Proof.Machine
end

