-- ==== Sys2Proof/Machine/Alu.lean ====
section
/-! DEFINITION. Meanings: LoadConstant, AddConstant, Load, And, Add, Sub, RandomAnd (spec/42_register_alu.md). -/

namespace Sys2Proof.Machine

/-- R160. -/
def execLoadConstant (x : Nibble) (kk : Byte) (s : State) : Host.Outcome State Fault Refusal :=
  .next (s.setReg x kk).advance

/-- R161: the sum wraps and VF is no carry. -/
def execAddConstant (x : Nibble) (kk : Byte) (s : State) : Host.Outcome State Fault Refusal :=
  .next (s.setReg x (s.reg x + kk)).advance

/-- R162. -/
def execLoad (x y : Nibble) (s : State) : Host.Outcome State Fault Refusal :=
  .next (s.setReg x (s.reg y)).advance

/-- R163: VF is not cleared. -/
def execAnd (x y : Nibble) (s : State) : Host.Outcome State Fault Refusal :=
  .next (s.setReg x (s.reg x &&& s.reg y)).advance

/-- R164: operands first, then V[x], then the carry into VF (D7). -/
def execAdd (x y : Nibble) (s : State) : Host.Outcome State Fault Refusal :=
  .next ((s.setReg x (s.reg x + s.reg y)).setFlag (carryFlag (s.reg x) (s.reg y))).advance

/-- R165: operands first, then V[x], then the strict comparison into VF (D7). -/
def execSub (x y : Nibble) (s : State) : Host.Outcome State Fault Refusal :=
  .next ((s.setReg x (s.reg x - s.reg y)).setFlag (greaterFlag (s.reg x) (s.reg y))).advance

/-- R166: the step's random byte, a free value (D10). -/
def execRandomAnd (x : Nibble) (kk : Byte) (s : State) : Host.Outcome State Fault Refusal :=
  .next (s.setReg x (s.rnd &&& kk)).advance

end Sys2Proof.Machine
end

