-- ==== Sys2Proof/Machine/Control.lean ====
section
/-! DEFINITION. Meanings: Return, Jump, Call, SkipIfEqual, SkipIfNotEqual (spec/41_control_flow.md) and the catch-all
NotImplemented (spec/40_step_engine.md R120). -/

namespace Sys2Proof.Machine

/-- R140: PC takes the popped value with nothing added; SP = 0 raises StackUnderflow. -/
def execRet (s : State) : Host.Outcome State Fault Refusal :=
  match s.pop with
  | some (target, t) => .next (t.setPc target)
  | none => .next (s.raise .stackUnderflow)

/-- R141. -/
def execJump (nnn : Addr12) (s : State) : Host.Outcome State Fault Refusal :=
  .next (s.setPc (zext16 nnn))

/-- R142: pushes the Call's own address; SP = 16 raises StackOverflow. -/
def execCall (nnn : Addr12) (s : State) : Host.Outcome State Fault Refusal :=
  match s.push s.pc with
  | some t => .next (t.setPc (zext16 nnn))
  | none => .next (s.raise .stackOverflow)

/-- R143. -/
def execSkipIfEqual (x : Nibble) (kk : Byte) (s : State) : Host.Outcome State Fault Refusal :=
  .next (s.skipIf (s.reg x == kk))

/-- R144. -/
def execSkipIfNotEqual (x : Nibble) (kk : Byte) (s : State) : Host.Outcome State Fault Refusal :=
  .next (s.skipIf (s.reg x != kk))

/-- R120. -/
def execNotImplemented (op : Word) (s : State) : Host.Outcome State Fault Refusal :=
  .next (s.raise (.instructionNotImplemented op))

end Sys2Proof.Machine
end

