-- ==== Sys2Proof/Machine/Draw.lean ====
section
/-! DEFINITION. The meaning of Draw (spec/44_draw.md R210 to R212): the scan over sprite rows and columns, which carries
the framebuffer and whether a collision has been seen. -/

namespace Sys2Proof.Machine

/-- One pixel of the scan: collision if the cell and the bit are both 1, then the XOR (R212). -/
def drawPixel (fb : Framebuffer) (r : Fin 32) (c : Fin 64) (bit : Bool) : Framebuffer × Bool :=
  (fb.setCell r c (fb.cell r c ^^ bit), fb.cell r c && bit)

/-- The columns 0 to n-1 of one sprite row (R210). -/
def drawRow (r : Fin 32) (xc row : Byte) : Nat → Framebuffer × Bool → Framebuffer × Bool
  | 0, acc => acc
  | j + 1, acc =>
    let (fb, hit) := drawRow r xc row j acc
    let (fb', hit') := drawPixel fb r (pixelCol xc j) (spriteBit row j)
    (fb', hit || hit')

/-- The sprite rows 0 to n-1, read from memory at `base` (R210). -/
def drawRows (m : Memory) (base : Nat) (xc yc : Byte) : Nat → Framebuffer × Bool → Framebuffer × Bool
  | 0, acc => acc
  | i + 1, acc =>
    drawRow (pixelRow yc i) xc (Memory.read m (base + i)) 8 (drawRows m base xc yc i acc)

/-- R210: V[x], V[y] and I are read before VF is written (the spec's decision D8; mark: DEDUCED, unsafe for x = 15 or y = 15,
notes/assumptions/6.md). n = 0 never faults: it draws nothing and sets VF = 0 (R56, R210; mark: DEDUCED against the
pseudocode of R210 for I above 4096, which no run reaches, unsafe there, notes/assumptions/9.md). -/
def execDraw (x y n : Nibble) (s : State) : Host.Outcome State Fault Refusal :=
  if dataInBounds s.i.toNat n.val then
    let (fb, hit) := drawRows s.mem (s.dataAddr 0) (s.reg x) (s.reg y) n.val (s.fb, false)
    .next (({ s with fb := fb } : State).setFlag (collisionFlag hit)).advance
  else .next (s.raise (.memoryOutOfBounds (s.highestAddr n.val)))

end Sys2Proof.Machine
end

