-- ==== Sys2Proof/Machine/Input.lean ====
section
/-! DEFINITION. Meanings: SkipIfNotPressed, LoadDelay, SetDelay (spec/45_input_timer.md). -/

namespace Sys2Proof.Machine

/-- R230: tests KEY[x] for the opcode nibble x itself (the spec's decision D19; mark: DEDUCED, unsafe,
notes/assumptions/6.md). -/
def execSkipIfNotPressed (x : Nibble) (s : State) : Host.Outcome State Fault Refusal :=
  .next (s.skipIf (! s.keys[x.val]))

/-- R231: DT before this step's timer update. -/
def execLoadDelay (x : Nibble) (s : State) : Host.Outcome State Fault Refusal :=
  .next (s.setReg x s.dt).advance

/-- R232: the step's timer update then counts the written value down. -/
def execSetDelay (x : Nibble) (s : State) : Host.Outcome State Fault Refusal :=
  .next (s.setDelayTimer (s.reg x)).advance

end Sys2Proof.Machine
end

