-- ==== Sys2Proof/Machine/Dispatch.lean ====
section
/-! DEFINITION. The dispatch of spec/40_step_engine.md R113: one arm per variant, the catch-all's among them. -/

namespace Sys2Proof.Machine

def exec (i : Instr) (s : State) : Host.Outcome State Fault Refusal :=
  match i with
  | .ret => Sys2Proof.Machine.execRet s
  | .jump nnn => Sys2Proof.Machine.execJump nnn s
  | .call nnn => Sys2Proof.Machine.execCall nnn s
  | .skipIfEqual x kk => Sys2Proof.Machine.execSkipIfEqual x kk s
  | .skipIfNotEqual x kk => Sys2Proof.Machine.execSkipIfNotEqual x kk s
  | .loadConstant x kk => Sys2Proof.Machine.execLoadConstant x kk s
  | .addConstant x kk => Sys2Proof.Machine.execAddConstant x kk s
  | .load x y => Sys2Proof.Machine.execLoad x y s
  | .and x y => Sys2Proof.Machine.execAnd x y s
  | .add x y => Sys2Proof.Machine.execAdd x y s
  | .sub x y => Sys2Proof.Machine.execSub x y s
  | .setAddress nnn => Sys2Proof.Machine.execSetAddress nnn s
  | .randomAnd x kk => Sys2Proof.Machine.execRandomAnd x kk s
  | .draw x y n => Sys2Proof.Machine.execDraw x y n s
  | .skipIfNotPressed x => Sys2Proof.Machine.execSkipIfNotPressed x s
  | .loadDelay x => Sys2Proof.Machine.execLoadDelay x s
  | .setDelay x => Sys2Proof.Machine.execSetDelay x s
  | .setFontLocation x => Sys2Proof.Machine.execSetFontLocation x s
  | .setBCD x => Sys2Proof.Machine.execSetBCD x s
  | .loadRegisters x => Sys2Proof.Machine.execLoadRegisters x s
  | .notImplemented op => Sys2Proof.Machine.execNotImplemented op s

end Sys2Proof.Machine
end

