-- ==== Sys2Proof/Machine/Step.lean ====
section
/-! DEFINITION. One step of the CORE (spec/40_step_engine.md R110), and the placing of a word where it is fetched. -/

namespace Sys2Proof.Machine

/-- What follows the execute: `State.complete` on a next state. -/
def afterExec (o : Host.Outcome State Fault Refusal) : Host.Outcome State Fault Refusal :=
  match o with
  | .next t => .next t.complete
  | .fault f => .fault f
  | .refused r => .refused r

/-- R110 in its order: the halt check (R121); the host's key write that stands before this step (R266); the fetch, which
may raise (R111); decode (R112); execute (R113); the timer update unless a fault was raised (R118, R119). -/
def step (s : State) : Host.Outcome State Fault Refusal :=
  match s.fault with
  | some cause => .fault (.halted cause)
  | none =>
    match s.takeKeys.fetch with
    | none => .next (s.takeKeys.raise (.fetchOutOfBounds s.pc))
    | some op => afterExec (exec (decodeWord op) s.takeKeys)

/-- The state with a table word stored where the next step fetches: FAULT is cleared, since a halted CORE fetches nothing
(R121), and a PC whose word lies outside memory is put at the entry point 0x200 (R60, R111). It stands for the host's program
load (mark: DESIGN CHOICE, notes/assumptions/5.md). -/
def State.withFetchWord (s : State) (nbits w : Nat) : State :=
  let op : Word := BitVec.ofNat 16 (w % 2 ^ nbits)
  let t : State := { s with fault := none, pc := if inBounds s.pc.toNat 2 then s.pc else 0x200 }
  (t.storeByte t.pc.toNat (BitVec.ofNat 8 (op.toNat / 256))).storeByte (t.pc.toNat + 1) (BitVec.ofNat 8 op.toNat)

end Sys2Proof.Machine
end

