-- ==== Sys2Proof/Machine/HostSide.lean ====
section
/-! DEFINITION. What the host does to the CORE between steps (spec/60_exceptions.md R260 to R270) and before the first
one (spec/70_reset_and_hazards.md R291, R292), and what it reads. -/

namespace Sys2Proof.Machine

/-- The numeric code of a fault (R250, D26). -/
def CoreFault.code : CoreFault → Nat
  | .instructionNotImplemented _ => 1
  | .stackOverflow => 2
  | .stackUnderflow => 3
  | .memoryOutOfBounds _ => 4
  | .fetchOutOfBounds _ => 5

/-- Bytes copied as they are from `base` on, in order (R291, D27). -/
def Memory.writeBlock (m : Memory) (base : Nat) : List Byte → Memory
  | [] => m
  | b :: bs => Memory.writeBlock (Memory.write m base b) (base + 1) bs

/-- How a program load ends. -/
inductive LoadOutcome where
  /-- The program is in memory and stepping may begin (R291). -/
  | loaded (s : State)
  /-- ProgramLoadFailed: the source is unreadable or missing; the CORE takes no step (R251, R292). Safe. -/
  | programLoadFailed
  /-- The program has more than 3583 bytes; the load is refused and no step taken (R292, D15). Safe. -/
  | sizeExceeded (length : Nat)
  deriving DecidableEq, Repr

/-- The program load of R291 and R292: `none` for a source that cannot be read. -/
def State.loadProgram (s : State) (source : Option (List Byte)) : LoadOutcome :=
  match source with
  | none => .programLoadFailed
  | some bytes =>
    if bytes.length ≤ 0xDFF then .loaded { s with mem := Memory.writeBlock s.mem 0x200 bytes }
    else .sizeExceeded bytes.length

/-- The host writes the key flags between two steps (R266). -/
def State.writeKeys (s : State) (k : Keys) : State := { s with keys := k }

/-- The host's key writes before the coming steps, after those already pending (R266). -/
def State.queueKeys (s : State) (ks : List Keys) : State := { s with pendingKeys := s.pendingKeys ++ ks }

/-- The step result the host is given (R122): none for Success, else the fault with its info. -/
def State.stepResult (s : State) : Option CoreFault := s.fault

/-- The pixel the host shows at column x, row y (R214). -/
def State.pixelOn (s : State) (x : Fin 64) (y : Fin 32) : Bool := s.fb.cell y x

/-- The sound timer as the host reads it (R260, D24). -/
def State.soundOutput (s : State) : Byte := s.st

end Sys2Proof.Machine
end

