-- ==== Sys2Proof/Safety.lean ====
section
/-! DEFINITION. The terms claims are stated in: a state that can step, the reachable states and their invariant
(spec/10_state.md R38), and what each instruction may write (R22, R27, R29, R31, R35; spec/20_memory.md R54). -/

namespace Sys2Proof.Machine

/-- The CORE is not halted (R121). -/
def State.running (s : State) : Prop := s.fault = none

/-- The next step of `s` fetches and decodes `i`: not halted, the word at PC inside memory, and that word decodes to `i`
(R110 to R112). -/
def State.fetches (s : State) (i : Instr) : Prop :=
  s.running ∧ s.pc.toNat ≤ 0xFFE ∧
    decodeWord (wordOfBytes (s.loadByte s.pc.toNat) (s.loadByte (s.pc.toNat + 1))) = i

/-- R38, with the two facts it needs: return addresses on the stack are addresses an instruction was fetched from, and
memory is in its canonical form. (SP in 0 to 16 and one-bit cells hold by the types of State.) -/
structure State.Inv (s : State) : Prop where
  index : s.i.toNat ≤ 0xFFF
  counter : s.pc.toNat ≤ 0x1002
  sound : s.st = 0
  returns : ∀ k : Fin 16, s.stack[k.val].toNat ≤ 0xFFE
  memory : Memory.wf s.mem

/-- The states a session can reach: reset and program load, then the host's key writes and the steps, in any order. -/
inductive Reachable : State → Prop
  | start {source : Option (List Byte)} {s : State} (h : State.reset.loadProgram source = .loaded s) : Reachable s
  | keys {s : State} (h : Reachable s) (k : Keys) : Reachable (s.writeKeys k)
  | queued {s : State} (h : Reachable s) (ks : List Keys) : Reachable (s.queueKeys ks)
  | step {s t : State} (h : Reachable s) (ht : step s = .next t) : Reachable t

/-- What a piece of code may write; what is not named here is left alone. -/
structure Footprint where
  regs : Nibble → Bool := fun _ => false
  index : Bool := false
  pc : Bool := false
  sp : Bool := false
  stack : Fin 16 → Bool := fun _ => false
  delay : Bool := false
  mem : Nat → Bool := fun _ => false
  display : Bool := false
  fault : Bool := false

/-- `t` differs from `s` at most where the footprint says so. Nothing writes the sound timer, the key flags or the two
input fields of the model while an instruction executes. -/
structure Frame (f : Footprint) (s t : State) : Prop where
  regs : ∀ r : Nibble, f.regs r = false → t.v[r.val] = s.v[r.val]
  index : f.index = false → t.i = s.i
  pc : f.pc = false → t.pc = s.pc
  sp : f.sp = false → t.sp = s.sp
  stack : ∀ k : Fin 16, f.stack k = false → t.stack[k.val] = s.stack[k.val]
  delay : f.delay = false → t.dt = s.dt
  mem : ∀ a : Nat, f.mem a = false → t.loadByte a = s.loadByte a
  display : f.display = false → t.fb = s.fb
  fault : f.fault = false → t.fault = s.fault
  sound : t.st = s.st
  keys : t.keys = s.keys
  rndIndex : t.rndIndex = s.rndIndex
  pendingKeys : t.pendingKeys = s.pendingKeys

end Sys2Proof.Machine
end

