-- ==== Sys2Proof/Certificates/Slice0/Obligations.lean ====
section
/-! DEFINITION. The statements for the provers, from the numbered rules of spec/. A rule whose text carries a mark
`[decision: …]` or `[derived: …]` is the spec's own choice or inference: a statement that rests on one says so. -/

open Sys2Proof Sys2Proof.Machine

/-! ## Encoding (spec/30_encoding.md) -/

/-- R81, R85, R90: one word of each row of the opcode table, so of each layout and of each function nibble and function
byte, and one word no row selects, written out bit by bit, decodes to the instruction it stands for (R90's notation is
decision D21). -/
def Obligations.SpecimenWordsDecodeToTheirInstructions : Prop :=
  decodeWord 0b0000000011101110#16 = .ret ∧
  decodeWord 0b0001001000000100#16 = .jump 0x204 ∧
  decodeWord 0b0010010000000000#16 = .call 0x400 ∧
  decodeWord 0b0011111100000001#16 = .skipIfEqual 0xF 0x01 ∧
  decodeWord 0b0100001100010000#16 = .skipIfNotEqual 3 0x10 ∧
  decodeWord 0b0110101000111100#16 = .loadConstant 0xA 0x3C ∧
  decodeWord 0b0111000000000001#16 = .addConstant 0 0x01 ∧
  decodeWord 0b1000000100100000#16 = .load 1 2 ∧
  decodeWord 0b1000001101000010#16 = .and 3 4 ∧
  decodeWord 0b1000101010110100#16 = .add 0xA 0xB ∧
  decodeWord 0b1000110011010101#16 = .sub 0xC 0xD ∧
  decodeWord 0b1010001100000000#16 = .setAddress 0x300 ∧
  decodeWord 0b1100001000001111#16 = .randomAnd 2 0x0F ∧
  decodeWord 0b1101010101100011#16 = .draw 5 6 3 ∧
  decodeWord 0b1110000110100001#16 = .skipIfNotPressed 1 ∧
  decodeWord 0b1111000100000111#16 = .loadDelay 1 ∧
  decodeWord 0b1111100100010101#16 = .setDelay 9 ∧
  decodeWord 0b1111011100101001#16 = .setFontLocation 7 ∧
  decodeWord 0b1111100000110011#16 = .setBCD 8 ∧
  decodeWord 0b1111001001100101#16 = .loadRegisters 2 ∧
  decodeWord 0b0000000011101111#16 = .notImplemented 0x00EF

/-- R84, R85 (derived): for every well-formed instruction and every value of its operands, decoding the bytes of its word
gives it back, and leaves the bytes after it. -/
def Obligations.DecodeOfEncodeIsTheInstruction : Prop :=
  ∀ (i : Instr) (rest : List Byte), i.wellFormed = true → decode (encodeBytes i ++ rest) = .ok (i, rest)

/-- R83, R84 (derived): every word decodes to a well-formed instruction whose encoding is that word, so no two words
share an instruction. -/
def Obligations.EncodeOfDecodeIsTheWord : Prop :=
  ∀ op : Word, (decodeWord op).wellFormed = true ∧ encode (decodeWord op) = op

/-- R83: decoding is total, each word decodes to exactly one variant, that of the one row of the opcode map that selects
it, and a word no row selects decodes to `NotImplemented` with the raw word. -/
def Obligations.EachWordDecodesToItsTableRow : Prop :=
  ∀ op : Word,
    (∀ row ∈ opcodeTable, row.selects op = true → (decodeWord op).mnemonic = row.mnemonic) ∧
    (∀ row ∈ opcodeTable, ∀ row' ∈ opcodeTable, row.selects op = true → row'.selects op = true → row = row') ∧
    ((∀ row ∈ opcodeTable, row.selects op = false) → decodeWord op = .notImplemented op)

/-- R86 (derived by the spec from R84): the words that decode to `NotImplemented` are exactly the unassigned space that R86
lists range by range. -/
def Obligations.CatchAllIsTheUnassignedSpace : Prop :=
  ∀ op : Word, decodeWord op = .notImplemented op ↔ unassignedWord op = true

/-! ## The step engine (spec/40_step_engine.md) -/

/-- R50: the fetched word holds memory[PC] in bits 15:8 and memory[PC+1] in bits 7:0. -/
def Obligations.FetchIsBigEndian : Prop :=
  ∀ s : State, s.pc.toNat + 1 ≤ 0xFFF →
    ∃ op : Word, s.fetch = some op ∧
      op.toNat / 0x100 = (s.loadByte s.pc.toNat).toNat ∧
      op.toNat % 0x100 = (s.loadByte (s.pc.toNat + 1)).toNat

/-- R110 with the latch of decision D1: when the next step fetches and decodes `i`, it is `exec i` at that state (after the
host's pending key write, notes/assumptions/3.md); where that raised a fault nothing is added, else both timers count down
and the next random byte is due (notes/assumptions/1.md). The halves of the word are bytes of memory at PC and PC + 1. -/
def Obligations.StepRunsTheDecodedInstruction : Prop :=
  ∀ (s t : State) (i : Instr), s.fetches i → exec i s.takeKeys = .next t →
    (t.fault ≠ none → step s = .next t) ∧
    (t.fault = none → step s = .next
      { t with
        dt := if t.dt.toNat = 0 then 0 else t.dt - 1
        st := if t.st.toNat = 0 then 0 else t.st - 1
        rndIndex := t.rndIndex + 1 })

/-- R121 (decision D1): a halted CORE takes no step, from whatever state. -/
def Obligations.HaltedCoreTakesNoStep : Prop :=
  ∀ (s : State) (cause : CoreFault), s.fault = some cause → step s = .fault (.halted cause)

/-- R111 (decisions D5, D6): a running CORE whose PC + 1 lies above 0xFFF raises FetchOutOfBounds(PC): only the latch is
written (beside the host's pending key write, notes/assumptions/3.md). -/
def Obligations.FetchOutsideMemoryRaises : Prop :=
  ∀ s : State, s.running → s.pc.toNat + 1 > 0xFFF →
    ∃ t, step s = .next t ∧ t.fault = some (.fetchOutOfBounds s.pc) ∧ Frame { fault := true } s.takeKeys t

/-- R250, R253, R56 (decisions D1 to D5): a step of a running CORE answers a next state, and FAULT then holds exactly what
the checks of R253 in their order give. Draw with n = 0 never faults (R56). For I or PC beyond the bounds of R38, which no
run reaches, the info's 16 bits are the model's choice (notes/assumptions/9.md). -/
def Obligations.StepRaisesExactlyTheSpecifiedFault : Prop :=
  ∀ s : State, s.running → ∃ t, step s = .next t ∧
    t.fault =
      if s.pc.toNat > 0xFFE then some (.fetchOutOfBounds s.pc)
      else match decodeWord (wordOfBytes (s.loadByte s.pc.toNat) (s.loadByte (s.pc.toNat + 1))) with
        | .notImplemented op => some (.instructionNotImplemented op)
        | .call _ => if s.sp.val = 16 then some .stackOverflow else none
        | .ret => if s.sp.val = 0 then some .stackUnderflow else none
        | .setBCD _ => if s.i.toNat + 3 > 4096 then some (.memoryOutOfBounds (BitVec.ofNat 16 (s.i.toNat + 2))) else none
        | .loadRegisters x =>
          if s.i.toNat + (x.val + 1) > 4096 then some (.memoryOutOfBounds (BitVec.ofNat 16 (s.i.toNat + x.val))) else none
        | .draw _ _ n =>
          if 0 < n.val ∧ s.i.toNat + n.val > 4096 then some (.memoryOutOfBounds (BitVec.ofNat 16 (s.i.toNat + n.val - 1))) else none
        | _ => none

/-- R118 (decision D2): whatever instruction or fetch raised it, a faulting step writes FAULT and nothing else: the PC
stays, the timers are not decremented. -/
def Obligations.FaultingStepWritesOnlyTheLatch : Prop :=
  ∀ s t : State, s.running → step s = .next t → t.fault ≠ none → Frame { fault := true } s.takeKeys t

/-- R119 (decision D9): every step that raises no fault counts the sound timer down, stopping at zero, whatever the
instruction, and the delay timer too: from V[x] for SetDelay, else from its old value. -/
def Obligations.SuccessfulStepCountsBothTimersDown : Prop :=
  ∀ (s t : State) (i : Instr), s.fetches i → step s = .next t → t.fault = none →
    t.st.toNat = s.st.toNat - 1 ∧
    t.dt.toNat = (match i with | .setDelay x => s.v[x.val].toNat | _ => s.dt.toNat) - 1

/-- R264, R266 (decisions D10, D19; the two input fields are the model's choice, notes/assumptions/1.md and 3.md): whatever
the instruction, the key flags after a step are the host's oldest pending write, or the old flags when none is pending; the
host's later writes stay pending; and a step that raises no fault uses up one random byte. -/
def Obligations.StepTakesOneKeyWriteAndOneRandomByte : Prop :=
  ∀ s t : State, s.running → step s = .next t →
    t.keys = s.pendingKeys.head?.getD s.keys ∧ t.pendingKeys = s.pendingKeys.tail ∧
    t.rndIndex = (if t.fault = none then s.rndIndex + 1 else s.rndIndex)

/-- R120 with the latch of decisions D1, D2: executing the catch-all raises InstructionNotImplemented with the raw word,
and writes nothing else. -/
def Obligations.NotImplementedRaisesItsWord : Prop :=
  ∀ (op : Word) (s : State), ∃ t, exec (.notImplemented op) s = .next t ∧
    t.fault = some (.instructionNotImplemented op) ∧ Frame { fault := true } s t

/-! ## Control flow (spec/41_control_flow.md) -/

/-- R140 (decisions D4, D13): Return with SP above 0 completes, PC takes the popped slot with nothing added, the slot keeps
its value; with SP = 0 it raises StackUnderflow and writes nothing else. -/
def Obligations.ReturnPopsThePc : Prop :=
  ∀ s : State,
    (∀ k : Fin 16, s.sp.val = k.val + 1 →
      ∃ t, exec .ret s = .next t ∧ t.pc = s.stack[k.val] ∧ t.sp.val = k.val ∧ Frame { pc := true, sp := true } s t) ∧
    (s.sp.val = 0 → ∃ t, exec .ret s = .next t ∧ t.fault = some .stackUnderflow ∧ Frame { fault := true } s t)

/-- R141: Jump completes and PC holds exactly nnn; nothing else is written. -/
def Obligations.JumpSetsThePc : Prop :=
  ∀ (nnn : Addr12) (s : State), ∃ t, exec (.jump nnn) s = .next t ∧ t.pc.toNat = nnn.toNat ∧ Frame { pc := true } s t

/-- R142 (decision D4): Call with SP below 16 completes: it pushes its own address, and PC holds exactly nnn; with SP = 16 it
raises StackOverflow and writes nothing else. -/
def Obligations.CallPushesItsOwnAddress : Prop :=
  ∀ (nnn : Addr12) (s : State),
    (∀ k : Fin 16, s.sp.val = k.val →
      ∃ t, exec (.call nnn) s = .next t ∧ t.stack[k.val] = s.pc ∧ t.sp.val = k.val + 1 ∧ t.pc.toNat = nnn.toNat ∧
        Frame { pc := true, sp := true, stack := fun j => j == k } s t) ∧
    (s.sp.val = 16 → ∃ t, exec (.call nnn) s = .next t ∧ t.fault = some .stackOverflow ∧ Frame { fault := true } s t)

/-- R145 (derived by the spec from R140, R142): a Return that finds SP as a completed Call left it, and the Call's own slot
unchanged, goes back to the Call itself and leaves SP as it was before the Call, whatever ran in between and whatever it
left in the other slots. -/
def Obligations.ReturnGoesBackToTheCallItself : Prop :=
  ∀ (nnn : Addr12) (k : Fin 16) (s t u : State), s.sp.val = k.val → exec (.call nnn) s = .next t →
    u.sp = t.sp → u.stack[k.val] = t.stack[k.val] →
    ∃ w, exec .ret u = .next w ∧ w.pc = s.pc ∧ w.sp = s.sp ∧ w.fault = u.fault

/-- R143: SkipIfEqual completes; PC + 4 when V[x] = kk, else PC + 2; nothing else is written. -/
def Obligations.SkipIfEqualSkipsOnEquality : Prop :=
  ∀ (x : Nibble) (kk : Byte) (s : State), ∃ t, exec (.skipIfEqual x kk) s = .next t ∧
    (s.v[x.val] = kk → t.pc = s.pc + 4) ∧ (s.v[x.val] ≠ kk → t.pc = s.pc + 2) ∧ Frame { pc := true } s t

/-- R144: SkipIfNotEqual completes; PC + 4 when V[x] is not kk, else PC + 2; nothing else is written. -/
def Obligations.SkipIfNotEqualSkipsOnDifference : Prop :=
  ∀ (x : Nibble) (kk : Byte) (s : State), ∃ t, exec (.skipIfNotEqual x kk) s = .next t ∧
    (s.v[x.val] ≠ kk → t.pc = s.pc + 4) ∧ (s.v[x.val] = kk → t.pc = s.pc + 2) ∧ Frame { pc := true } s t

/-! ## Registers and arithmetic (spec/42_register_alu.md) -/

/-- R160: LoadConstant completes; V[x] = kk, PC + 2, nothing else is written. -/
def Obligations.LoadConstantWritesTheConstant : Prop :=
  ∀ (x : Nibble) (kk : Byte) (s : State), ∃ t, exec (.loadConstant x kk) s = .next t ∧
    t.v[x.val] = kk ∧ t.pc = s.pc + 2 ∧ Frame { regs := fun r => r == x, pc := true } s t

/-- R161: AddConstant completes; V[x] is the sum mod 256, PC + 2; VF is written only as V[x]. -/
def Obligations.AddConstantWrapsWithoutCarry : Prop :=
  ∀ (x : Nibble) (kk : Byte) (s : State), ∃ t, exec (.addConstant x kk) s = .next t ∧
    t.v[x.val].toNat = (s.v[x.val].toNat + kk.toNat) % 256 ∧ t.pc = s.pc + 2 ∧
    Frame { regs := fun r => r == x, pc := true } s t

/-- R162: Load completes; V[x] is the old V[y], PC + 2, nothing else is written. -/
def Obligations.LoadCopiesTheRegister : Prop :=
  ∀ (x y : Nibble) (s : State), ∃ t, exec (.load x y) s = .next t ∧
    t.v[x.val] = s.v[y.val] ∧ t.pc = s.pc + 2 ∧ Frame { regs := fun r => r == x, pc := true } s t

/-- R163: And completes; each bit of V[x] is the AND of the two old bits, PC + 2; VF is written only as V[x]. -/
def Obligations.AndIsBitwise : Prop :=
  ∀ (x y : Nibble) (s : State), ∃ t, exec (.and x y) s = .next t ∧
    (∀ k : Nat, t.v[x.val].getLsbD k = (s.v[x.val].getLsbD k && s.v[y.val].getLsbD k)) ∧ t.pc = s.pc + 2 ∧
    Frame { regs := fun r => r == x, pc := true } s t

/-- R164 with decision D7: Add completes; V[x] is the sum mod 256 unless x = 15; VF is 1 exactly when the exact sum of the
old values exceeds 255, for x = 15 too (the flag written last is D7's choice); PC + 2. -/
def Obligations.AddWritesSumThenCarry : Prop :=
  ∀ (x y : Nibble) (s : State), ∃ t, exec (.add x y) s = .next t ∧
    (x ≠ 15 → t.v[x.val].toNat = (s.v[x.val].toNat + s.v[y.val].toNat) % 256) ∧
    t.v[15].toNat = (if s.v[x.val].toNat + s.v[y.val].toNat > 255 then 1 else 0) ∧ t.pc = s.pc + 2 ∧
    Frame { regs := fun r => r == x || r == 15, pc := true } s t

/-- R165 with decision D7: Sub completes; V[x] is the difference mod 256 unless x = 15; VF is 1 exactly when the old V[x] is
strictly above the old V[y], for x = 15 too (the flag written last is D7's choice); PC + 2. -/
def Obligations.SubWritesDifferenceThenGreater : Prop :=
  ∀ (x y : Nibble) (s : State), ∃ t, exec (.sub x y) s = .next t ∧
    (x ≠ 15 → (t.v[x.val].toNat : Int) = ((s.v[x.val].toNat : Int) - s.v[y.val].toNat) % 256) ∧
    t.v[15].toNat = (if s.v[x.val].toNat > s.v[y.val].toNat then 1 else 0) ∧ t.pc = s.pc + 2 ∧
    Frame { regs := fun r => r == x || r == 15, pc := true } s t

/-- R166 with decision D10: RandomAnd completes; V[x] is the step's random byte AND kk, so every bit that kk clears is 0;
PC + 2. It holds whatever the random bytes are (notes/assumptions/1.md). -/
def Obligations.RandomAndMasksTheRandomByte : Prop :=
  ∀ (x : Nibble) (kk : Byte) (s : State), ∃ t, exec (.randomAnd x kk) s = .next t ∧
    (∀ k : Nat, t.v[x.val].getLsbD k = ((Config.randomByte s.rndIndex).getLsbD k && kk.getLsbD k)) ∧ t.pc = s.pc + 2 ∧
    Frame { regs := fun r => r == x, pc := true } s t

/-! ## Index register and memory (spec/43_address_memory.md) -/

/-- R190: SetAddress completes; I = nnn, PC + 2, nothing else is written. -/
def Obligations.SetAddressWritesTheIndex : Prop :=
  ∀ (nnn : Addr12) (s : State), ∃ t, exec (.setAddress nnn) s = .next t ∧
    t.i.toNat = nnn.toNat ∧ t.pc = s.pc + 2 ∧ Frame { index := true, pc := true } s t

/-- R193 with decision D11: SetFontLocation completes; I is the whole V[x] times 5, with no wrap; PC + 2. -/
def Obligations.SetFontLocationMultipliesByFive : Prop :=
  ∀ (x : Nibble) (s : State), ∃ t, exec (.setFontLocation x) s = .next t ∧
    t.i.toNat = s.v[x.val].toNat * 5 ∧ t.pc = s.pc + 2 ∧ Frame { index := true, pc := true } s t

/-- R196 with decisions D3, D12: SetBCD on a canonical memory completes when I, I + 1 and I + 2 are in memory: it writes the
three decimal digits there, no other byte and no register; else it raises MemoryOutOfBounds(I + 2) and writes nothing else. -/
def Obligations.SetBCDStoresTheDecimalDigits : Prop :=
  ∀ (x : Nibble) (s : State), Memory.wf s.mem →
    (s.i.toNat ≤ 0xFFD → ∃ t, exec (.setBCD x) s = .next t ∧
      (t.loadByte s.i.toNat).toNat = s.v[x.val].toNat / 100 ∧
      (t.loadByte (s.i.toNat + 1)).toNat = s.v[x.val].toNat % 100 / 10 ∧
      (t.loadByte (s.i.toNat + 2)).toNat = s.v[x.val].toNat % 10 ∧ t.pc = s.pc + 2 ∧
      Frame { pc := true, mem := fun a => s.dataAddr 0 ≤ a && a ≤ s.dataAddr 2 } s t) ∧
    (s.i.toNat > 0xFFD → ∃ t, exec (.setBCD x) s = .next t ∧
      t.fault = some (.memoryOutOfBounds (BitVec.ofNat 16 (s.i.toNat + 2))) ∧ Frame { fault := true } s t)

/-- R199 with decisions D3, D12: LoadRegisters completes when I to I + x are in memory: V[k] is memory[I + k] for every k up
to x, and no other register, I among them, is written; else it raises MemoryOutOfBounds(I + x) and writes nothing else. -/
def Obligations.LoadRegistersLoadsTheBlock : Prop :=
  ∀ (x : Nibble) (s : State),
    (s.i.toNat + x.val ≤ 0xFFF → ∃ t, exec (.loadRegisters x) s = .next t ∧
      (∀ k : Nibble, k.val ≤ x.val → t.v[k.val] = s.loadByte (s.i.toNat + k.val)) ∧ t.pc = s.pc + 2 ∧
      Frame { regs := fun r => r.val ≤ x.val, pc := true } s t) ∧
    (s.i.toNat + x.val > 0xFFF → ∃ t, exec (.loadRegisters x) s = .next t ∧
      t.fault = some (.memoryOutOfBounds (BitVec.ofNat 16 (s.i.toNat + x.val))) ∧ Frame { fault := true } s t)

/-! ## Draw (spec/44_draw.md) -/

/-- R210 to R212 with decisions D3, D8: Draw completes when its n sprite bytes are in memory, n = 0 always. Each sprite pixel's cell, at the
coordinates of R211 taken from the registers before VF is written, is XORed with bit 7 - j of its sprite byte; every other
cell is unchanged; VF is 1 exactly when some cell held 1 and received 1; PC + 2. -/
def Obligations.DrawXorsTheSpriteAndReportsCollision : Prop :=
  ∀ (x y n : Nibble) (s : State), (n.val = 0 ∨ s.i.toNat + n.val ≤ 4096) →
    ∃ t, exec (.draw x y n) s = .next t ∧
      (∀ i j : Nat, i < n.val → j < 8 → ∀ (r : Fin 32) (c : Fin 64),
        r.val = (s.v[y.val].toNat + i) % 32 → c.val = (s.v[x.val].toNat + j) % 64 →
        t.fb.cell r c = (s.fb.cell r c ^^ (s.loadByte (s.i.toNat + i)).getLsbD (7 - j))) ∧
      (∀ (r : Fin 32) (c : Fin 64),
        (∀ i j : Nat, i < n.val → j < 8 →
          ¬ (r.val = (s.v[y.val].toNat + i) % 32 ∧ c.val = (s.v[x.val].toNat + j) % 64)) →
        t.fb.cell r c = s.fb.cell r c) ∧
      (t.v[15] = 1 ∨ t.v[15] = 0) ∧
      (t.v[15] = 1 ↔ ∃ (i j : Nat) (r : Fin 32) (c : Fin 64), i < n.val ∧ j < 8 ∧
        r.val = (s.v[y.val].toNat + i) % 32 ∧ c.val = (s.v[x.val].toNat + j) % 64 ∧
        s.fb.cell r c = true ∧ (s.loadByte (s.i.toNat + i)).getLsbD (7 - j) = true) ∧
      t.pc = s.pc + 2 ∧ Frame { regs := fun r => r == 15, display := true, pc := true } s t

/-- R210, R56 with decision D3: Draw with at least one sprite byte whose bytes reach past memory raises
MemoryOutOfBounds(I + n - 1) and writes nothing else, neither VF nor a cell. (n = 0 never faults: R56, and the statement
above.) -/
def Obligations.DrawOutsideMemoryRaises : Prop :=
  ∀ (x y n : Nibble) (s : State), 0 < n.val → s.i.toNat + n.val > 4096 →
    ∃ t, exec (.draw x y n) s = .next t ∧
      t.fault = some (.memoryOutOfBounds (BitVec.ofNat 16 (s.i.toNat + n.val - 1))) ∧ Frame { fault := true } s t

/-- R213, its part that R212 gives (R213 is derived by the spec): a second Draw of the same sprite bytes at the same
coordinates on the framebuffer the first one left restores every cell to its value before the first Draw, and VF is then 1
exactly when a pixel goes from 1 to 0 relative to the state after the first Draw. The second may name other registers and
another address, as long as they hold the same values. -/
def Obligations.DrawingTwiceRestoresTheDisplay : Prop :=
  ∀ (x y x' y' n : Nibble) (s t u w : State),
    (n.val = 0 ∨ s.i.toNat + n.val ≤ 4096) → (n.val = 0 ∨ u.i.toNat + n.val ≤ 4096) →
    exec (.draw x y n) s = .next t → u.fb = t.fb → u.v[x'.val] = s.v[x.val] → u.v[y'.val] = s.v[y.val] →
    (∀ k : Nat, k < n.val → u.loadByte (u.i.toNat + k) = s.loadByte (s.i.toNat + k)) →
    exec (.draw x' y' n) u = .next w →
    w.fb = s.fb ∧
    (w.v[15] = 1 ↔ ∃ (r : Fin 32) (c : Fin 64), t.fb.cell r c = true ∧ w.fb.cell r c = false)

/-- R213's last clause, 'VF = 1 after the second Draw exactly when the sprite has at least one 1 bit', read of every
framebuffer. EXPECTED TO FAIL: it contradicts R212, from which the spec derives it, when every cell under a 1 bit was on
before the first Draw, which then turns them all off (notes/assumptions/8.md). The model follows R210 and R212. -/
def Obligations.SecondDrawCollidesWheneverTheSpriteHasAOneBit : Prop :=
  ∀ (x y n : Nibble) (s t w : State), x ≠ 15 → y ≠ 15 → s.i.toNat + n.val ≤ 4096 →
    exec (.draw x y n) s = .next t → exec (.draw x y n) t = .next w →
    (w.v[15] = 1 ↔ ∃ i j : Nat, i < n.val ∧ j < 8 ∧ (s.loadByte (s.i.toNat + i)).getLsbD (7 - j) = true)

/-! ## Keys and timers (spec/45_input_timer.md) -/

/-- R230 with decision D19: SkipIfNotPressed completes; it tests KEY[x] for the opcode nibble x itself, PC + 4 when that key
is released, else PC + 2; nothing else is written. -/
def Obligations.SkipIfNotPressedTestsTheKey : Prop :=
  ∀ (x : Nibble) (s : State), ∃ t, exec (.skipIfNotPressed x) s = .next t ∧
    (s.keys[x.val] = false → t.pc = s.pc + 4) ∧ (s.keys[x.val] = true → t.pc = s.pc + 2) ∧ Frame { pc := true } s t

/-- R231: LoadDelay completes; V[x] is DT, PC + 2, nothing else is written. -/
def Obligations.LoadDelayReadsTheTimer : Prop :=
  ∀ (x : Nibble) (s : State), ∃ t, exec (.loadDelay x) s = .next t ∧
    t.v[x.val] = s.dt ∧ t.pc = s.pc + 2 ∧ Frame { regs := fun r => r == x, pc := true } s t

/-- R231's corner (derived by the spec from R119): over a whole step LoadDelay reads DT before the decrement. -/
def Obligations.LoadDelayStepReadsBeforeTheDecrement : Prop :=
  ∀ (x : Nibble) (s : State), s.fetches (.loadDelay x) →
    ∃ t, step s = .next t ∧ t.v[x.val] = s.dt ∧ t.dt.toNat = s.dt.toNat - 1 ∧ t.pc = s.pc + 2

/-- R232: SetDelay completes; DT is V[x], PC + 2, nothing else is written. -/
def Obligations.SetDelayWritesTheTimer : Prop :=
  ∀ (x : Nibble) (s : State), ∃ t, exec (.setDelay x) s = .next t ∧
    t.dt = s.v[x.val] ∧ t.pc = s.pc + 2 ∧ Frame { delay := true, pc := true } s t

/-! ## Rules about all instructions -/

/-- The writers of R22, R27, R29, R30, R31, R35, R54, R115 to R117, R233 and R250 (R22 and R31 are derived by the spec):
each piece of state is written only by the instructions the spec names for it. V[r] by those of R22's column 'writes'; PC is
other than 2 further only after a branch, a skip (then 4 further) or a raise (then PC stays); FAULT only by the raiser R250
names, with its fault; the sound timer and the key flags by none. -/
def Obligations.StateIsWrittenOnlyByItsOwners : Prop :=
  ∀ (i : Instr) (s t : State), exec i s = .next t →
    (∀ r : Nibble, t.v[r.val] ≠ s.v[r.val] →
      match i with
      | .loadConstant x _ | .addConstant x _ | .load x _ | .and x _ | .randomAnd x _ | .loadDelay x => r = x
      | .add x _ | .sub x _ => r = x ∨ r = 15
      | .draw _ _ _ => r = 15
      | .loadRegisters x => r.val ≤ x.val
      | _ => False) ∧
    (t.pc ≠ s.pc + 2 →
      match i with
      | .ret | .jump _ | .call _ => True
      | .skipIfEqual _ _ | .skipIfNotEqual _ _ | .skipIfNotPressed _ => t.pc = s.pc + 4
      | .draw _ _ _ | .setBCD _ | .loadRegisters _ | .notImplemented _ => t.pc = s.pc ∧ t.fault ≠ none
      | _ => False) ∧
    (t.fault ≠ s.fault →
      match i with
      | .notImplemented op => t.fault = some (.instructionNotImplemented op)
      | .call _ => t.fault = some .stackOverflow
      | .ret => t.fault = some .stackUnderflow
      | .draw _ _ _ | .setBCD _ | .loadRegisters _ => ∃ a, t.fault = some (.memoryOutOfBounds a)
      | _ => False) ∧
    (t.fb ≠ s.fb → ∃ x y n, i = .draw x y n) ∧
    (t.i ≠ s.i → (∃ nnn, i = .setAddress nnn) ∨ ∃ x, i = .setFontLocation x) ∧
    (t.stack ≠ s.stack → ∃ nnn, i = .call nnn) ∧
    (t.sp ≠ s.sp → (∃ nnn, i = .call nnn) ∨ i = .ret) ∧
    (t.dt ≠ s.dt → ∃ x, i = .setDelay x) ∧
    (t.mem ≠ s.mem → ∃ x, i = .setBCD x) ∧
    t.st = s.st ∧ t.keys = s.keys

/-- R22, its column 'reads' (derived by the spec): an instruction reads no general register but those R22 names for it. Two
states that differ only in a register it does not read are taken to states that differ at most in that register. -/
def Obligations.InstructionsReadOnlyTheirNamedRegisters : Prop :=
  ∀ (i : Instr) (s t : State) (r : Nibble) (b : Byte),
    (match i with
      | .skipIfEqual x _ | .skipIfNotEqual x _ | .addConstant x _ | .setDelay x | .setFontLocation x | .setBCD x => r ≠ x
      | .load _ y => r ≠ y
      | .and x y | .add x y | .sub x y | .draw x y _ => r ≠ x ∧ r ≠ y
      | _ => True) →
    exec i s = .next t →
    ∃ t', exec i { s with v := s.v.set r.val b } = .next t' ∧ { t' with v := t.v } = t ∧
      ∀ q : Nibble, q ≠ r → t'.v[q.val] = t.v[q.val]

/-- R233, R31 (derived by the spec): no instruction reads the sound timer: two states that differ only in ST are taken to
states that differ only in ST. -/
def Obligations.SoundTimerIsReadByNoInstruction : Prop :=
  ∀ (i : Instr) (s t : State) (z : Byte), exec i s = .next t → exec i { s with st := z } = .next { t with st := z }

/-- R35, R266 (decision D19): every instruction but SkipIfNotPressed ignores the key flags: two states that differ only in
KEY are taken to states that differ only in KEY. -/
def Obligations.OnlySkipIfNotPressedReadsTheKeys : Prop :=
  ∀ (i : Instr) (s t : State) (k : Keys), (∀ x, i ≠ .skipIfNotPressed x) → exec i s = .next t →
    exec i { s with keys := k } = .next { t with keys := k }

/-- R29, R30, D13 (decision: the popped slot keeps its value): a slot at or above SP is dead. Whatever the instruction, two
states that agree but for such slots are taken to states that agree but for slots at or above the new SP. -/
def Obligations.SlotsAboveTheStackPointerAreDead : Prop :=
  ∀ (i : Instr) (s t : State) (stack' : Vector Word 16),
    (∀ k : Fin 16, k.val < s.sp.val → stack'[k.val] = s.stack[k.val]) → exec i s = .next t →
    ∃ t', exec i { s with stack := stack' } = .next t' ∧ { t' with stack := t.stack } = t ∧
      ∀ k : Fin 16, k.val < t.sp.val → t'.stack[k.val] = t.stack[k.val]

/-! ## Reset, load, invariants (spec/10_state.md, spec/70_reset_and_hazards.md) -/

/-- R37, R290: what reset leaves. The font bytes are the parameter FONT, whatever it is (decision D14,
notes/assumptions/2.md), the empty latch is decision D1. -/
def Obligations.ResetLeavesTheStatedValues : Prop :=
  (∀ r : Nibble, State.reset.v[r.val] = 0) ∧ State.reset.i = 0 ∧ State.reset.pc.toNat = 0x200 ∧ State.reset.sp.val = 0 ∧
  (∀ k : Fin 16, State.reset.stack[k.val] = 0) ∧ State.reset.dt = 0 ∧ State.reset.st = 0 ∧
  (∀ a : Fin 80, State.reset.loadByte a.val = Config.font a) ∧
  (∀ a : Nat, 0x50 ≤ a → a < 0x1000 → State.reset.loadByte a = 0) ∧
  (∀ (r : Fin 32) (c : Fin 64), State.reset.fb.cell r c = false) ∧
  (∀ k : Fin 16, State.reset.keys[k.val] = false) ∧ State.reset.fault = none

/-- R291: a program of at most 3583 bytes is copied to 0x200 and up, in order, and nothing else changes. -/
def Obligations.ProgramLoadCopiesTheBytes : Prop :=
  ∀ bytes : List Byte, bytes.length ≤ 3583 →
    ∃ s, State.reset.loadProgram (some bytes) = .loaded s ∧
      (∀ (k : Nat) (h : k < bytes.length), s.loadByte (0x200 + k) = bytes[k]) ∧
      Frame { mem := fun a => 0x200 ≤ a && a < 0x200 + bytes.length } State.reset s

/-- R292 (decision D15): a program that is too long is refused, and a source that cannot be read fails; no state results. -/
def Obligations.ProgramLoadRefusesWhatDoesNotFit : Prop :=
  (∀ bytes : List Byte, bytes.length > 3583 → State.reset.loadProgram (some bytes) = .sizeExceeded bytes.length) ∧
  State.reset.loadProgram none = .programLoadFailed

/-- R38 at reset: the invariant holds there. -/
def Obligations.InvariantHoldsAtReset : Prop := State.reset.Inv

/-- R26, R28, R31, R38 (derived by the spec), with the canonical form of memory: every step of a state that meets the
invariant gives a state that meets it. -/
def Obligations.EveryStepKeepsTheInvariant : Prop :=
  ∀ s t : State, s.Inv → step s = .next t → t.Inv

/-- R38 (derived by the spec): in every state a session can reach, with any program, any key writes and any random bytes,
the bounds of R38 hold (SP's by the type of State.sp already). -/
def Obligations.ReachableStatesMeetTheirBounds : Prop :=
  ∀ s : State, Reachable s → s.sp.val ≤ 16 ∧ s.i.toNat ≤ 0xFFF ∧ s.pc.toNat ≤ 0x1002 ∧ s.st = 0

/-- R119, R121 (decisions D1, D9): along any run of k steps none of which faults, whatever instructions it executes, the sound
timer has counted down by k, stopping at zero; and a run never goes on after a fault. -/
def Obligations.SoundTimerCountsTheStepsOfARun : Prop :=
  ∀ (k : Nat) (s t : State), Sys2Proof.core.run k s = .next t →
    (t.fault = none → t.st.toNat = s.st.toNat - k) ∧ (s.fault ≠ none → k = 0)
end

