-- ==== Sys2Proof/Laws/Decode.lean ====
section
/-! SUPPORT. The fields of a word as numbers (spec/30_encoding.md R10, R80), the fields of each encoded layout (R81), and
what the masks of the opcode map (R85) select. -/

namespace Sys2Proof

/-- A word is made of its four nibbles. -/
theorem toNat_of_fields (op : Word) :
    op.toNat = field op 12 4 * 0x1000 + field op 8 4 * 0x100 + field op 4 4 * 0x10 + field op 0 4 := by
  have := op.isLt
  simp only [field]
  omega

theorem field_lt (op : Word) (lo len : Nat) : field op lo len < 2 ^ len := Nat.mod_lt _ (Nat.two_pow_pos len)

@[simp] theorem xOf_val (op : Word) : (xOf op).val = field op 8 4 := rfl
@[simp] theorem yOf_val (op : Word) : (yOf op).val = field op 4 4 := rfl
@[simp] theorem nOf_val (op : Word) : (nOf op).val = field op 0 4 := rfl

@[simp] theorem kkOf_toNat (op : Word) : (kkOf op).toNat = field op 0 8 := by
  have := field_lt op 0 8
  simp only [kkOf, BitVec.toNat_ofNat]
  omega

@[simp] theorem nnnOf_toNat (op : Word) : (nnnOf op).toNat = field op 0 12 := by
  have := field_lt op 0 12
  simp only [nnnOf, BitVec.toNat_ofNat]
  omega

/-! ## The fields of an encoded word -/

section
variable {f : Nat} (hf : f < 16) (x y : Nibble) (kk : Byte) (nnn : Addr12)
include hf

theorem encodeNNN_toNat : (encodeNNN f nnn).toNat = f * 0x1000 + nnn.toNat := by
  have := nnn.isLt
  simp only [encodeNNN, BitVec.toNat_ofNat]
  omega

theorem encodeXKK_toNat : (encodeXKK f x kk).toNat = f * 0x1000 + x.val * 0x100 + kk.toNat := by
  have := kk.isLt
  simp only [encodeXKK, BitVec.toNat_ofNat]
  omega

theorem encodeXYN_toNat {k : Nat} (hk : k < 16) :
    (encodeXYN f x y k).toNat = f * 0x1000 + x.val * 0x100 + y.val * 0x10 + k := by
  simp only [encodeXYN, BitVec.toNat_ofNat]
  omega

theorem encodeXFF_toNat {k : Nat} (hk : k < 256) : (encodeXFF f x k).toNat = f * 0x1000 + x.val * 0x100 + k := by
  simp only [encodeXFF, BitVec.toNat_ofNat]
  omega

theorem encodeNNN_fields : familyOf (encodeNNN f nnn) = f ∧ nnnOf (encodeNNN f nnn) = nnn := by
  have := nnn.isLt
  refine ⟨?_, BitVec.eq_of_toNat_eq ?_⟩
  · simp only [familyOf, field, encodeNNN_toNat hf]
    omega
  · simp only [nnnOf_toNat, field, encodeNNN_toNat hf]
    omega

theorem encodeXKK_fields :
    familyOf (encodeXKK f x kk) = f ∧ xOf (encodeXKK f x kk) = x ∧ kkOf (encodeXKK f x kk) = kk := by
  have := kk.isLt
  refine ⟨?_, Fin.ext ?_, BitVec.eq_of_toNat_eq ?_⟩
  · simp only [familyOf, field, encodeXKK_toNat hf]
    omega
  · simp only [xOf_val, field, encodeXKK_toNat hf]
    omega
  · simp only [kkOf_toNat, field, encodeXKK_toNat hf]
    omega

theorem encodeXYN_fields {k : Nat} (hk : k < 16) :
    familyOf (encodeXYN f x y k) = f ∧ xOf (encodeXYN f x y k) = x ∧ yOf (encodeXYN f x y k) = y ∧
      field (encodeXYN f x y k) 0 4 = k := by
  refine ⟨?_, Fin.ext ?_, Fin.ext ?_, ?_⟩
  · simp only [familyOf, field, encodeXYN_toNat hf x y hk]
    omega
  · simp only [xOf_val, field, encodeXYN_toNat hf x y hk]
    omega
  · simp only [yOf_val, field, encodeXYN_toNat hf x y hk]
    omega
  · simp only [field, encodeXYN_toNat hf x y hk]
    omega

theorem encodeXFF_fields {k : Nat} (hk : k < 256) :
    familyOf (encodeXFF f x k) = f ∧ xOf (encodeXFF f x k) = x ∧ field (encodeXFF f x k) 0 8 = k := by
  refine ⟨?_, Fin.ext ?_, ?_⟩
  · simp only [familyOf, field, encodeXFF_toNat hf x hk]
    omega
  · simp only [xOf_val, field, encodeXFF_toNat hf x hk]
    omega
  · simp only [field, encodeXFF_toNat hf x hk]
    omega

end

/-! ## What a mask selects -/

theorem field_and (op m : Word) (lo len : Nat) : field (op &&& m) lo len = field op lo len &&& field m lo len := by
  simp only [field, BitVec.toNat_and]
  rw [← Nat.shiftRight_eq_div_pow, ← Nat.shiftRight_eq_div_pow, ← Nat.shiftRight_eq_div_pow,
    Nat.shiftRight_and_distrib, Nat.and_mod_two_pow]

theorem field_and_ones (op : Word) (lo len : Nat) : field op lo len &&& (2 ^ len - 1) = field op lo len := by
  rw [Nat.and_two_pow_sub_one_eq_mod, Nat.mod_eq_of_lt (field_lt op lo len)]

/-- A mask of whole nibbles keeps the nibbles it names and clears the others. -/
theorem and_nibbles_toNat (op m : Word) (p q r z : Bool) (hp : field m 12 4 = if p then 2 ^ 4 - 1 else 0)
    (hq : field m 8 4 = if q then 2 ^ 4 - 1 else 0) (hr : field m 4 4 = if r then 2 ^ 4 - 1 else 0)
    (hz : field m 0 4 = if z then 2 ^ 4 - 1 else 0) :
    (op &&& m).toNat = (if p then field op 12 4 * 0x1000 else 0) + (if q then field op 8 4 * 0x100 else 0) +
      (if r then field op 4 4 * 0x10 else 0) + (if z then field op 0 4 else 0) := by
  rw [toNat_of_fields (op &&& m)]
  simp only [field_and, hp, hq, hr, hz]
  cases p <;> cases q <;> cases r <;> cases z <;>
    simp only [if_true, Bool.false_eq_true, if_false, field_and_ones, Nat.and_zero, Nat.zero_mul]

theorem field_low_byte (op : Word) : field op 0 8 = field op 4 4 * 0x10 + field op 0 4 := by
  simp only [field]
  omega

/-- What is left of a word under each of the four masks of R85. -/
theorem and_mask_toNat (op : Word) :
    (op &&& 0xF000#16).toNat = field op 12 4 * 0x1000 ∧
    (op &&& 0xF00F#16).toNat = field op 12 4 * 0x1000 + field op 0 4 ∧
    (op &&& 0xF0FF#16).toNat = field op 12 4 * 0x1000 + field op 0 8 ∧
    (op &&& 0xFFFF#16).toNat = op.toNat := by
  have b := field_low_byte op
  have w := toNat_of_fields op
  have m1 := and_nibbles_toNat op 0xF000#16 true false false false (by decide) (by decide) (by decide) (by decide)
  have m2 := and_nibbles_toNat op 0xF00F#16 true false false true (by decide) (by decide) (by decide) (by decide)
  have m3 := and_nibbles_toNat op 0xF0FF#16 true false true true (by decide) (by decide) (by decide) (by decide)
  have m4 := and_nibbles_toNat op 0xFFFF#16 true true true true (by decide) (by decide) (by decide) (by decide)
  simp only [if_true, Bool.false_eq_true, if_false] at m1 m2 m3 m4
  omega

/-- R86 as arithmetic. -/
theorem unassignedWord_iff (op : Word) : unassignedWord op = true ↔
    (op.toNat < 0x1000 ∧ op.toNat ≠ 0x00EE) ∨ (0x5000 ≤ op.toNat ∧ op.toNat < 0x6000) ∨
    (0x9000 ≤ op.toNat ∧ op.toNat < 0xA000) ∨ (0xB000 ≤ op.toNat ∧ op.toNat < 0xC000) ∨
    (0x8000 ≤ op.toNat ∧ op.toNat < 0x9000 ∧ op.toNat % 0x10 ≠ 0 ∧ op.toNat % 0x10 ≠ 2 ∧ op.toNat % 0x10 ≠ 4 ∧
      op.toNat % 0x10 ≠ 5) ∨
    (0xE000 ≤ op.toNat ∧ op.toNat < 0xF000 ∧ op.toNat % 0x100 ≠ 0xA1) ∨
    (0xF000 ≤ op.toNat ∧ op.toNat % 0x100 ≠ 0x07 ∧ op.toNat % 0x100 ≠ 0x15 ∧ op.toNat % 0x100 ≠ 0x29 ∧
      op.toNat % 0x100 ≠ 0x33 ∧ op.toNat % 0x100 ≠ 0x65) := by
  simp only [unassignedWord, Bool.or_eq_true, Bool.and_eq_true, decide_eq_true_eq, bne_iff_ne, Bool.not_eq_true',
    List.contains_eq_mem, decide_eq_false_iff_not, List.mem_cons, List.not_mem_nil, or_false, not_or, or_assoc,
    and_assoc, ne_eq]

end Sys2Proof
end

