-- ==== Sys2Proof/Laws/Memory.lean ====
section
/-! SUPPORT. The laws of memory (spec/20_memory.md R53, R57, R63): reading after a write, and the canonical form, which
every memory operation keeps and which makes equal memories equal data. -/

namespace Sys2Proof.Machine

theorem Memory.read_put_same (m : Memory) (a : Nat) (v : Byte) (h : Memory.read m a = Memory.unlisted a) :
    Memory.read (Memory.put a v m) a = v := by
  unfold Memory.put
  split
  · simp_all
  · simp [Memory.read]

theorem Memory.read_put_other (m : Memory) {a b : Nat} (v : Byte) (h : b ≠ a) :
    Memory.read (Memory.put a v m) b = Memory.read m b := by
  unfold Memory.put
  split
  · rfl
  · simp [Memory.read, h]

/-- An address below every listed one reads as unlisted. -/
theorem Memory.read_of_lt {m : Memory} {a : Nat} (h : ∀ c ∈ m, a < c.1) : Memory.read m a = Memory.unlisted a := by
  induction m with
  | nil => rfl
  | cons c m ih =>
    have hc : a < c.1 := h c (by simp)
    simp only [Memory.read]
    rw [if_neg (by omega)]
    exact ih fun d hd => h d (by simp [hd])

/-- A write leaves every other byte alone, in any list of cells. -/
theorem Memory.read_write_other (m : Memory) {a b : Nat} (v : Byte) (h : b ≠ a) :
    Memory.read (Memory.write m a v) b = Memory.read m b := by
  induction m with
  | nil => exact Memory.read_put_other [] v h
  | cons c m ih =>
    simp only [Memory.write]
    split
    · exact Memory.read_put_other _ v h
    split
    · rename_i _ hac
      rw [Memory.read_put_other _ v h, Memory.read, if_neg (hac ▸ h)]
    · simp only [Memory.read, ih]

/-- A write is read back, in a memory whose addresses rise. -/
theorem Memory.read_write_same {m : Memory} (hm : m.Pairwise fun p q => p.1 < q.1) (a : Nat) (v : Byte) :
    Memory.read (Memory.write m a v) a = v := by
  induction m with
  | nil => exact Memory.read_put_same [] a v rfl
  | cons c m ih =>
    rw [List.pairwise_cons] at hm
    simp only [Memory.write]
    split
    · rename_i hac
      refine Memory.read_put_same _ a v (Memory.read_of_lt fun d hd => ?_)
      rcases List.mem_cons.1 hd with rfl | hd
      · exact hac
      · exact Nat.lt_trans hac (hm.1 d hd)
    split
    · rename_i _ hac
      refine Memory.read_put_same _ a v (Memory.read_of_lt fun d hd => ?_)
      exact hac ▸ hm.1 d hd
    · rename_i _ hac
      simp only [Memory.read, if_neg hac]
      exact ih hm.2

/-- Every cell after a write is the written one or an old one. -/
theorem Memory.mem_write {m : Memory} {a : Nat} {v : Byte} {c : Host.Cell} (h : c ∈ Memory.write m a v) :
    (c = (a, v) ∧ v ≠ Memory.unlisted a) ∨ c ∈ m := by
  have put : ∀ n : Memory, c ∈ Memory.put a v n → (c = (a, v) ∧ v ≠ Memory.unlisted a) ∨ c ∈ n := by
    intro n hn
    unfold Memory.put at hn
    split at hn
    · exact .inr hn
    · rename_i hv
      rcases List.mem_cons.1 hn with e | hn
      · exact .inl ⟨e, hv⟩
      · exact .inr hn
  induction m with
  | nil => exact put [] h
  | cons d m ih =>
    simp only [Memory.write] at h
    split at h
    · exact put _ h
    split at h
    · exact (put _ h).imp id fun h => List.mem_cons_of_mem _ h
    · rcases List.mem_cons.1 h with e | h
      · exact .inr (by simp [e])
      · exact (ih h).imp id fun h => List.mem_cons_of_mem _ h

/-- A write keeps the addresses rising. -/
theorem Memory.write_sorted {m : Memory} (hm : m.Pairwise fun p q => p.1 < q.1) (a : Nat) (v : Byte) :
    (Memory.write m a v).Pairwise fun p q => p.1 < q.1 := by
  have put : ∀ n : Memory, n.Pairwise (fun p q => p.1 < q.1) → (∀ d ∈ n, a < d.1) →
      (Memory.put a v n).Pairwise fun p q => p.1 < q.1 := by
    intro n hn hlt
    unfold Memory.put
    split
    · exact hn
    · exact List.pairwise_cons.2 ⟨hlt, hn⟩
  induction m with
  | nil => exact put [] .nil (by simp)
  | cons c m ih =>
    have hm' := List.pairwise_cons.1 hm
    simp only [Memory.write]
    split
    · rename_i hac
      refine put _ hm fun d hd => ?_
      rcases List.mem_cons.1 hd with rfl | hd
      · exact hac
      · exact Nat.lt_trans hac (hm'.1 d hd)
    split
    · rename_i _ hac
      exact put _ hm'.2 fun d hd => hac ▸ hm'.1 d hd
    · rename_i h1 h2
      refine List.pairwise_cons.2 ⟨fun d hd => ?_, ih hm'.2⟩
      rcases Memory.mem_write hd with ⟨rfl, _⟩ | hd
      · show c.1 < a
        omega
      · exact hm'.1 d hd

/-- The canonical form is kept by a write inside the address space. -/
theorem Memory.write_wf {m : Memory} (hm : Memory.wf m) {a : Nat} (ha : a < 4096) (v : Byte) :
    Memory.wf (Memory.write m a v) := by
  refine ⟨Memory.write_sorted hm.1 a v, fun c hc => ?_⟩
  rcases Memory.mem_write hc with ⟨rfl, hv⟩ | hc
  · exact ⟨ha, hv⟩
  · exact hm.2 c hc

/-- Reset memory is canonical. -/
theorem Memory.wf_nil : Memory.wf [] := ⟨.nil, by simp⟩

/-- Canonical memories that read alike are equal data. -/
theorem Memory.wf_ext {m n : Memory} (hm : Memory.wf m) (hn : Memory.wf n)
    (h : ∀ a, Memory.read m a = Memory.read n a) : m = n := by
  induction m generalizing n with
  | nil =>
    cases n with
    | nil => rfl
    | cons d n =>
      have := h d.1
      simp only [Memory.read, if_pos] at this
      exact absurd this.symm (hn.2 d (by simp)).2
  | cons c m ih =>
    cases n with
    | nil =>
      have := h c.1
      simp only [Memory.read, if_pos] at this
      exact absurd this (hm.2 c (by simp)).2
    | cons d n =>
      have hm' := List.pairwise_cons.1 hm.1
      have hn' := List.pairwise_cons.1 hn.1
      have hc := h c.1
      have hd := h d.1
      have key : c.1 = d.1 := by
        rcases Nat.lt_trichotomy c.1 d.1 with hlt | heq | hlt
        · rw [Memory.read_of_lt (m := d :: n)] at hc
          · simp only [Memory.read, if_pos] at hc
            exact absurd hc (hm.2 c (by simp)).2
          · intro e he
            rcases List.mem_cons.1 he with rfl | he
            · exact hlt
            · exact Nat.lt_trans hlt (hn'.1 e he)
        · exact heq
        · rw [Memory.read_of_lt (m := c :: m)] at hd
          · simp only [Memory.read, if_pos] at hd
            exact absurd hd.symm (hn.2 d (by simp)).2
          · intro e he
            rcases List.mem_cons.1 he with rfl | he
            · exact hlt
            · exact Nat.lt_trans hlt (hm'.1 e he)
      have hv : c.2 = d.2 := by simpa [Memory.read, key] using hc
      have hcd : c = d := Prod.ext key hv
      subst hcd
      refine congrArg (c :: ·) (ih ⟨hm'.2, fun e he => hm.2 e (by simp [he])⟩
        ⟨hn'.2, fun e he => hn.2 e (by simp [he])⟩ fun a => ?_)
      by_cases hac : a = c.1
      · subst hac
        rw [Memory.read_of_lt hm'.1, Memory.read_of_lt hn'.1]
      · simpa [Memory.read, hac] using h a

/-- A block write leaves every byte outside the block alone. -/
theorem Memory.read_writeBlock_other (m : Memory) (base : Nat) (bs : List Byte) {a : Nat}
    (h : a < base ∨ base + bs.length ≤ a) : Memory.read (Memory.writeBlock m base bs) a = Memory.read m a := by
  induction bs generalizing m base with
  | nil => rfl
  | cons b bs ih =>
    simp only [List.length_cons] at h
    rw [Memory.writeBlock, ih _ _ (by omega), Memory.read_write_other _ _ (by omega)]

/-- A block write is read back byte for byte. -/
theorem Memory.read_writeBlock_inside {m : Memory} (hm : m.Pairwise fun p q => p.1 < q.1) (base : Nat)
    (bs : List Byte) (k : Nat) (h : k < bs.length) : Memory.read (Memory.writeBlock m base bs) (base + k) = bs[k] := by
  induction bs generalizing m base k with
  | nil => simp at h
  | cons b bs ih =>
    rw [Memory.writeBlock]
    cases k with
    | zero =>
      rw [Memory.read_writeBlock_other _ _ _ (by omega)]
      exact Memory.read_write_same hm _ _
    | succ k =>
      have := ih (Memory.write_sorted hm base b) (base + 1) k (by simpa using h)
      rw [show base + (k + 1) = base + 1 + k by omega, this]
      rfl

/-- The canonical form is kept by a block write inside the address space. -/
theorem Memory.writeBlock_wf {m : Memory} (hm : Memory.wf m) {base : Nat} {bs : List Byte}
    (h : base + bs.length ≤ 4096) : Memory.wf (Memory.writeBlock m base bs) := by
  induction bs generalizing m base with
  | nil => exact hm
  | cons b bs ih =>
    simp only [List.length_cons] at h
    exact ih (Memory.write_wf hm (by omega) b) (by omega)

end Sys2Proof.Machine
end

