-- ==== Sys2Proof/Laws/State.lean ====
section
/-! SUPPORT. One lemma for each field of State under each update of Machine/Ops.lean, Machine/Flags.lean and
Machine/HostSide.lean, so that no later proof unfolds a record update. -/

namespace Sys2Proof.Machine

variable (s : State)

/-! ## setReg -/

@[simp] theorem State.setReg_v (x : Nibble) (b : Byte) : (s.setReg x b).v = s.v.set x.val b := rfl
@[simp] theorem State.setReg_i (x : Nibble) (b : Byte) : (s.setReg x b).i = s.i := rfl
@[simp] theorem State.setReg_pc (x : Nibble) (b : Byte) : (s.setReg x b).pc = s.pc := rfl
@[simp] theorem State.setReg_sp (x : Nibble) (b : Byte) : (s.setReg x b).sp = s.sp := rfl
@[simp] theorem State.setReg_stack (x : Nibble) (b : Byte) : (s.setReg x b).stack = s.stack := rfl
@[simp] theorem State.setReg_dt (x : Nibble) (b : Byte) : (s.setReg x b).dt = s.dt := rfl
@[simp] theorem State.setReg_st (x : Nibble) (b : Byte) : (s.setReg x b).st = s.st := rfl
@[simp] theorem State.setReg_mem (x : Nibble) (b : Byte) : (s.setReg x b).mem = s.mem := rfl
@[simp] theorem State.setReg_fb (x : Nibble) (b : Byte) : (s.setReg x b).fb = s.fb := rfl
@[simp] theorem State.setReg_keys (x : Nibble) (b : Byte) : (s.setReg x b).keys = s.keys := rfl
@[simp] theorem State.setReg_fault (x : Nibble) (b : Byte) : (s.setReg x b).fault = s.fault := rfl
@[simp] theorem State.setReg_rndIndex (x : Nibble) (b : Byte) : (s.setReg x b).rndIndex = s.rndIndex := rfl
@[simp] theorem State.setReg_pendingKeys (x : Nibble) (b : Byte) : (s.setReg x b).pendingKeys = s.pendingKeys := rfl

/-! ## setFlag -/

@[simp] theorem State.setFlag_v (b : Byte) : (s.setFlag b).v = s.v.set 15 b := rfl
@[simp] theorem State.setFlag_i (b : Byte) : (s.setFlag b).i = s.i := rfl
@[simp] theorem State.setFlag_pc (b : Byte) : (s.setFlag b).pc = s.pc := rfl
@[simp] theorem State.setFlag_sp (b : Byte) : (s.setFlag b).sp = s.sp := rfl
@[simp] theorem State.setFlag_stack (b : Byte) : (s.setFlag b).stack = s.stack := rfl
@[simp] theorem State.setFlag_dt (b : Byte) : (s.setFlag b).dt = s.dt := rfl
@[simp] theorem State.setFlag_st (b : Byte) : (s.setFlag b).st = s.st := rfl
@[simp] theorem State.setFlag_mem (b : Byte) : (s.setFlag b).mem = s.mem := rfl
@[simp] theorem State.setFlag_fb (b : Byte) : (s.setFlag b).fb = s.fb := rfl
@[simp] theorem State.setFlag_keys (b : Byte) : (s.setFlag b).keys = s.keys := rfl
@[simp] theorem State.setFlag_fault (b : Byte) : (s.setFlag b).fault = s.fault := rfl
@[simp] theorem State.setFlag_rndIndex (b : Byte) : (s.setFlag b).rndIndex = s.rndIndex := rfl
@[simp] theorem State.setFlag_pendingKeys (b : Byte) : (s.setFlag b).pendingKeys = s.pendingKeys := rfl

/-! ## setIndex -/

@[simp] theorem State.setIndex_v (w : Word) : (s.setIndex w).v = s.v := rfl
@[simp] theorem State.setIndex_i (w : Word) : (s.setIndex w).i = w := rfl
@[simp] theorem State.setIndex_pc (w : Word) : (s.setIndex w).pc = s.pc := rfl
@[simp] theorem State.setIndex_sp (w : Word) : (s.setIndex w).sp = s.sp := rfl
@[simp] theorem State.setIndex_stack (w : Word) : (s.setIndex w).stack = s.stack := rfl
@[simp] theorem State.setIndex_dt (w : Word) : (s.setIndex w).dt = s.dt := rfl
@[simp] theorem State.setIndex_st (w : Word) : (s.setIndex w).st = s.st := rfl
@[simp] theorem State.setIndex_mem (w : Word) : (s.setIndex w).mem = s.mem := rfl
@[simp] theorem State.setIndex_fb (w : Word) : (s.setIndex w).fb = s.fb := rfl
@[simp] theorem State.setIndex_keys (w : Word) : (s.setIndex w).keys = s.keys := rfl
@[simp] theorem State.setIndex_fault (w : Word) : (s.setIndex w).fault = s.fault := rfl
@[simp] theorem State.setIndex_rndIndex (w : Word) : (s.setIndex w).rndIndex = s.rndIndex := rfl
@[simp] theorem State.setIndex_pendingKeys (w : Word) : (s.setIndex w).pendingKeys = s.pendingKeys := rfl

/-! ## setDelayTimer -/

@[simp] theorem State.setDelayTimer_v (b : Byte) : (s.setDelayTimer b).v = s.v := rfl
@[simp] theorem State.setDelayTimer_i (b : Byte) : (s.setDelayTimer b).i = s.i := rfl
@[simp] theorem State.setDelayTimer_pc (b : Byte) : (s.setDelayTimer b).pc = s.pc := rfl
@[simp] theorem State.setDelayTimer_sp (b : Byte) : (s.setDelayTimer b).sp = s.sp := rfl
@[simp] theorem State.setDelayTimer_stack (b : Byte) : (s.setDelayTimer b).stack = s.stack := rfl
@[simp] theorem State.setDelayTimer_dt (b : Byte) : (s.setDelayTimer b).dt = b := rfl
@[simp] theorem State.setDelayTimer_st (b : Byte) : (s.setDelayTimer b).st = s.st := rfl
@[simp] theorem State.setDelayTimer_mem (b : Byte) : (s.setDelayTimer b).mem = s.mem := rfl
@[simp] theorem State.setDelayTimer_fb (b : Byte) : (s.setDelayTimer b).fb = s.fb := rfl
@[simp] theorem State.setDelayTimer_keys (b : Byte) : (s.setDelayTimer b).keys = s.keys := rfl
@[simp] theorem State.setDelayTimer_fault (b : Byte) : (s.setDelayTimer b).fault = s.fault := rfl
@[simp] theorem State.setDelayTimer_rndIndex (b : Byte) : (s.setDelayTimer b).rndIndex = s.rndIndex := rfl
@[simp] theorem State.setDelayTimer_pendingKeys (b : Byte) : (s.setDelayTimer b).pendingKeys = s.pendingKeys := rfl

/-! ## setPc -/

@[simp] theorem State.setPc_v (w : Word) : (s.setPc w).v = s.v := rfl
@[simp] theorem State.setPc_i (w : Word) : (s.setPc w).i = s.i := rfl
@[simp] theorem State.setPc_pc (w : Word) : (s.setPc w).pc = w := rfl
@[simp] theorem State.setPc_sp (w : Word) : (s.setPc w).sp = s.sp := rfl
@[simp] theorem State.setPc_stack (w : Word) : (s.setPc w).stack = s.stack := rfl
@[simp] theorem State.setPc_dt (w : Word) : (s.setPc w).dt = s.dt := rfl
@[simp] theorem State.setPc_st (w : Word) : (s.setPc w).st = s.st := rfl
@[simp] theorem State.setPc_mem (w : Word) : (s.setPc w).mem = s.mem := rfl
@[simp] theorem State.setPc_fb (w : Word) : (s.setPc w).fb = s.fb := rfl
@[simp] theorem State.setPc_keys (w : Word) : (s.setPc w).keys = s.keys := rfl
@[simp] theorem State.setPc_fault (w : Word) : (s.setPc w).fault = s.fault := rfl
@[simp] theorem State.setPc_rndIndex (w : Word) : (s.setPc w).rndIndex = s.rndIndex := rfl
@[simp] theorem State.setPc_pendingKeys (w : Word) : (s.setPc w).pendingKeys = s.pendingKeys := rfl

/-! ## advance -/

@[simp] theorem State.advance_v : s.advance.v = s.v := rfl
@[simp] theorem State.advance_i : s.advance.i = s.i := rfl
@[simp] theorem State.advance_pc : s.advance.pc = s.pc + 2 := rfl
@[simp] theorem State.advance_sp : s.advance.sp = s.sp := rfl
@[simp] theorem State.advance_stack : s.advance.stack = s.stack := rfl
@[simp] theorem State.advance_dt : s.advance.dt = s.dt := rfl
@[simp] theorem State.advance_st : s.advance.st = s.st := rfl
@[simp] theorem State.advance_mem : s.advance.mem = s.mem := rfl
@[simp] theorem State.advance_fb : s.advance.fb = s.fb := rfl
@[simp] theorem State.advance_keys : s.advance.keys = s.keys := rfl
@[simp] theorem State.advance_fault : s.advance.fault = s.fault := rfl
@[simp] theorem State.advance_rndIndex : s.advance.rndIndex = s.rndIndex := rfl
@[simp] theorem State.advance_pendingKeys : s.advance.pendingKeys = s.pendingKeys := rfl

/-! ## skipIf -/

@[simp] theorem State.skipIf_v (c : Bool) : (s.skipIf c).v = s.v := rfl
@[simp] theorem State.skipIf_i (c : Bool) : (s.skipIf c).i = s.i := rfl
@[simp] theorem State.skipIf_pc (c : Bool) : (s.skipIf c).pc = if c then s.pc + 4 else s.pc + 2 := rfl
@[simp] theorem State.skipIf_sp (c : Bool) : (s.skipIf c).sp = s.sp := rfl
@[simp] theorem State.skipIf_stack (c : Bool) : (s.skipIf c).stack = s.stack := rfl
@[simp] theorem State.skipIf_dt (c : Bool) : (s.skipIf c).dt = s.dt := rfl
@[simp] theorem State.skipIf_st (c : Bool) : (s.skipIf c).st = s.st := rfl
@[simp] theorem State.skipIf_mem (c : Bool) : (s.skipIf c).mem = s.mem := rfl
@[simp] theorem State.skipIf_fb (c : Bool) : (s.skipIf c).fb = s.fb := rfl
@[simp] theorem State.skipIf_keys (c : Bool) : (s.skipIf c).keys = s.keys := rfl
@[simp] theorem State.skipIf_fault (c : Bool) : (s.skipIf c).fault = s.fault := rfl
@[simp] theorem State.skipIf_rndIndex (c : Bool) : (s.skipIf c).rndIndex = s.rndIndex := rfl
@[simp] theorem State.skipIf_pendingKeys (c : Bool) : (s.skipIf c).pendingKeys = s.pendingKeys := rfl

/-! ## storeByte -/

@[simp] theorem State.storeByte_v (a : Nat) (b : Byte) : (s.storeByte a b).v = s.v := rfl
@[simp] theorem State.storeByte_i (a : Nat) (b : Byte) : (s.storeByte a b).i = s.i := rfl
@[simp] theorem State.storeByte_pc (a : Nat) (b : Byte) : (s.storeByte a b).pc = s.pc := rfl
@[simp] theorem State.storeByte_sp (a : Nat) (b : Byte) : (s.storeByte a b).sp = s.sp := rfl
@[simp] theorem State.storeByte_stack (a : Nat) (b : Byte) : (s.storeByte a b).stack = s.stack := rfl
@[simp] theorem State.storeByte_dt (a : Nat) (b : Byte) : (s.storeByte a b).dt = s.dt := rfl
@[simp] theorem State.storeByte_st (a : Nat) (b : Byte) : (s.storeByte a b).st = s.st := rfl
@[simp] theorem State.storeByte_mem (a : Nat) (b : Byte) : (s.storeByte a b).mem = Memory.write s.mem a b := rfl
@[simp] theorem State.storeByte_fb (a : Nat) (b : Byte) : (s.storeByte a b).fb = s.fb := rfl
@[simp] theorem State.storeByte_keys (a : Nat) (b : Byte) : (s.storeByte a b).keys = s.keys := rfl
@[simp] theorem State.storeByte_fault (a : Nat) (b : Byte) : (s.storeByte a b).fault = s.fault := rfl
@[simp] theorem State.storeByte_rndIndex (a : Nat) (b : Byte) : (s.storeByte a b).rndIndex = s.rndIndex := rfl
@[simp] theorem State.storeByte_pendingKeys (a : Nat) (b : Byte) : (s.storeByte a b).pendingKeys = s.pendingKeys := rfl

/-! ## raise -/

@[simp] theorem State.raise_v (f : CoreFault) : (s.raise f).v = s.v := rfl
@[simp] theorem State.raise_i (f : CoreFault) : (s.raise f).i = s.i := rfl
@[simp] theorem State.raise_pc (f : CoreFault) : (s.raise f).pc = s.pc := rfl
@[simp] theorem State.raise_sp (f : CoreFault) : (s.raise f).sp = s.sp := rfl
@[simp] theorem State.raise_stack (f : CoreFault) : (s.raise f).stack = s.stack := rfl
@[simp] theorem State.raise_dt (f : CoreFault) : (s.raise f).dt = s.dt := rfl
@[simp] theorem State.raise_st (f : CoreFault) : (s.raise f).st = s.st := rfl
@[simp] theorem State.raise_mem (f : CoreFault) : (s.raise f).mem = s.mem := rfl
@[simp] theorem State.raise_fb (f : CoreFault) : (s.raise f).fb = s.fb := rfl
@[simp] theorem State.raise_keys (f : CoreFault) : (s.raise f).keys = s.keys := rfl
@[simp] theorem State.raise_fault (f : CoreFault) : (s.raise f).fault = some f := rfl
@[simp] theorem State.raise_rndIndex (f : CoreFault) : (s.raise f).rndIndex = s.rndIndex := rfl
@[simp] theorem State.raise_pendingKeys (f : CoreFault) : (s.raise f).pendingKeys = s.pendingKeys := rfl

/-! ## timerUpdate -/

@[simp] theorem State.timerUpdate_v : s.timerUpdate.v = s.v := rfl
@[simp] theorem State.timerUpdate_i : s.timerUpdate.i = s.i := rfl
@[simp] theorem State.timerUpdate_pc : s.timerUpdate.pc = s.pc := rfl
@[simp] theorem State.timerUpdate_sp : s.timerUpdate.sp = s.sp := rfl
@[simp] theorem State.timerUpdate_stack : s.timerUpdate.stack = s.stack := rfl
@[simp] theorem State.timerUpdate_dt : s.timerUpdate.dt = countDown s.dt := rfl
@[simp] theorem State.timerUpdate_st : s.timerUpdate.st = countDown s.st := rfl
@[simp] theorem State.timerUpdate_mem : s.timerUpdate.mem = s.mem := rfl
@[simp] theorem State.timerUpdate_fb : s.timerUpdate.fb = s.fb := rfl
@[simp] theorem State.timerUpdate_keys : s.timerUpdate.keys = s.keys := rfl
@[simp] theorem State.timerUpdate_fault : s.timerUpdate.fault = s.fault := rfl
@[simp] theorem State.timerUpdate_rndIndex : s.timerUpdate.rndIndex = s.rndIndex := rfl
@[simp] theorem State.timerUpdate_pendingKeys : s.timerUpdate.pendingKeys = s.pendingKeys := rfl

/-! ## writeKeys -/

@[simp] theorem State.writeKeys_v (k : Keys) : (s.writeKeys k).v = s.v := rfl
@[simp] theorem State.writeKeys_i (k : Keys) : (s.writeKeys k).i = s.i := rfl
@[simp] theorem State.writeKeys_pc (k : Keys) : (s.writeKeys k).pc = s.pc := rfl
@[simp] theorem State.writeKeys_sp (k : Keys) : (s.writeKeys k).sp = s.sp := rfl
@[simp] theorem State.writeKeys_stack (k : Keys) : (s.writeKeys k).stack = s.stack := rfl
@[simp] theorem State.writeKeys_dt (k : Keys) : (s.writeKeys k).dt = s.dt := rfl
@[simp] theorem State.writeKeys_st (k : Keys) : (s.writeKeys k).st = s.st := rfl
@[simp] theorem State.writeKeys_mem (k : Keys) : (s.writeKeys k).mem = s.mem := rfl
@[simp] theorem State.writeKeys_fb (k : Keys) : (s.writeKeys k).fb = s.fb := rfl
@[simp] theorem State.writeKeys_keys (k : Keys) : (s.writeKeys k).keys = k := rfl
@[simp] theorem State.writeKeys_fault (k : Keys) : (s.writeKeys k).fault = s.fault := rfl
@[simp] theorem State.writeKeys_rndIndex (k : Keys) : (s.writeKeys k).rndIndex = s.rndIndex := rfl
@[simp] theorem State.writeKeys_pendingKeys (k : Keys) : (s.writeKeys k).pendingKeys = s.pendingKeys := rfl

/-! ## queueKeys -/

@[simp] theorem State.queueKeys_v (ks : List Keys) : (s.queueKeys ks).v = s.v := rfl
@[simp] theorem State.queueKeys_i (ks : List Keys) : (s.queueKeys ks).i = s.i := rfl
@[simp] theorem State.queueKeys_pc (ks : List Keys) : (s.queueKeys ks).pc = s.pc := rfl
@[simp] theorem State.queueKeys_sp (ks : List Keys) : (s.queueKeys ks).sp = s.sp := rfl
@[simp] theorem State.queueKeys_stack (ks : List Keys) : (s.queueKeys ks).stack = s.stack := rfl
@[simp] theorem State.queueKeys_dt (ks : List Keys) : (s.queueKeys ks).dt = s.dt := rfl
@[simp] theorem State.queueKeys_st (ks : List Keys) : (s.queueKeys ks).st = s.st := rfl
@[simp] theorem State.queueKeys_mem (ks : List Keys) : (s.queueKeys ks).mem = s.mem := rfl
@[simp] theorem State.queueKeys_fb (ks : List Keys) : (s.queueKeys ks).fb = s.fb := rfl
@[simp] theorem State.queueKeys_keys (ks : List Keys) : (s.queueKeys ks).keys = s.keys := rfl
@[simp] theorem State.queueKeys_fault (ks : List Keys) : (s.queueKeys ks).fault = s.fault := rfl
@[simp] theorem State.queueKeys_rndIndex (ks : List Keys) : (s.queueKeys ks).rndIndex = s.rndIndex := rfl
@[simp] theorem State.queueKeys_pendingKeys (ks : List Keys) : (s.queueKeys ks).pendingKeys = s.pendingKeys ++ ks := rfl

/-! ## takeKeys and complete -/

@[simp] theorem State.takeKeys_v : s.takeKeys.v = s.v := by
  unfold State.takeKeys; split <;> simp_all
@[simp] theorem State.takeKeys_i : s.takeKeys.i = s.i := by
  unfold State.takeKeys; split <;> simp_all
@[simp] theorem State.takeKeys_pc : s.takeKeys.pc = s.pc := by
  unfold State.takeKeys; split <;> simp_all
@[simp] theorem State.takeKeys_sp : s.takeKeys.sp = s.sp := by
  unfold State.takeKeys; split <;> simp_all
@[simp] theorem State.takeKeys_stack : s.takeKeys.stack = s.stack := by
  unfold State.takeKeys; split <;> simp_all
@[simp] theorem State.takeKeys_dt : s.takeKeys.dt = s.dt := by
  unfold State.takeKeys; split <;> simp_all
@[simp] theorem State.takeKeys_st : s.takeKeys.st = s.st := by
  unfold State.takeKeys; split <;> simp_all
@[simp] theorem State.takeKeys_mem : s.takeKeys.mem = s.mem := by
  unfold State.takeKeys; split <;> simp_all
@[simp] theorem State.takeKeys_fb : s.takeKeys.fb = s.fb := by
  unfold State.takeKeys; split <;> simp_all
@[simp] theorem State.takeKeys_keys : s.takeKeys.keys = s.pendingKeys.head?.getD s.keys := by
  unfold State.takeKeys; split <;> simp_all
@[simp] theorem State.takeKeys_fault : s.takeKeys.fault = s.fault := by
  unfold State.takeKeys; split <;> simp_all
@[simp] theorem State.takeKeys_rndIndex : s.takeKeys.rndIndex = s.rndIndex := by
  unfold State.takeKeys; split <;> simp_all
@[simp] theorem State.takeKeys_pendingKeys : s.takeKeys.pendingKeys = s.pendingKeys.tail := by
  unfold State.takeKeys; split <;> simp_all

@[simp] theorem State.complete_v : s.complete.v = s.v := by
  unfold State.complete; split <;> simp_all
@[simp] theorem State.complete_i : s.complete.i = s.i := by
  unfold State.complete; split <;> simp_all
@[simp] theorem State.complete_pc : s.complete.pc = s.pc := by
  unfold State.complete; split <;> simp_all
@[simp] theorem State.complete_sp : s.complete.sp = s.sp := by
  unfold State.complete; split <;> simp_all
@[simp] theorem State.complete_stack : s.complete.stack = s.stack := by
  unfold State.complete; split <;> simp_all
@[simp] theorem State.complete_mem : s.complete.mem = s.mem := by
  unfold State.complete; split <;> simp_all
@[simp] theorem State.complete_fb : s.complete.fb = s.fb := by
  unfold State.complete; split <;> simp_all
@[simp] theorem State.complete_keys : s.complete.keys = s.keys := by
  unfold State.complete; split <;> simp_all
@[simp] theorem State.complete_fault : s.complete.fault = s.fault := by
  unfold State.complete; split <;> simp_all
@[simp] theorem State.complete_pendingKeys : s.complete.pendingKeys = s.pendingKeys := by
  unfold State.complete; split <;> simp_all

/-- A faulting execute is left as it is (R118). -/
theorem State.complete_of_fault {s : State} (h : s.fault ≠ none) : s.complete = s := by
  unfold State.complete; split <;> simp_all

/-- A successful execute is followed by the timer update and uses up the random byte (R119, R264). -/
theorem State.complete_of_running {s : State} (h : s.fault = none) :
    s.complete = { s.timerUpdate with rndIndex := s.rndIndex + 1 } := by
  unfold State.complete; rw [h]

/-- A state with no pending key write is left as it is. -/
theorem State.takeKeys_of_none_pending {s : State} (h : s.pendingKeys = []) : s.takeKeys = s := by
  unfold State.takeKeys; rw [h]

/-! ## Registers through the accessors -/

@[simp] theorem State.reg_setReg_same (x : Nibble) (b : Byte) : (s.setReg x b).reg x = b := by
  simp [State.reg]

theorem State.reg_setReg_other {x y : Nibble} (h : y ≠ x) (b : Byte) : (s.setReg x b).reg y = s.reg y := by
  have : x.val ≠ y.val := fun e => h (Fin.ext e.symm)
  simp [State.reg, this]

theorem State.reg_setReg (x y : Nibble) (b : Byte) : (s.setReg x b).reg y = if y = x then b else s.reg y := by
  by_cases h : y = x
  · subst h; simp
  · rw [if_neg h, State.reg_setReg_other s h]

/-! ## Bytes of memory through the accessor -/

/-- A state with the same memory reads the same bytes. -/
theorem State.loadByte_congr {s t : State} (h : t.mem = s.mem) (a : Nat) : t.loadByte a = s.loadByte a := by
  simp [State.loadByte, h]

/-- A timer one step later, as a number: one less, stopping at zero (R119). -/
theorem countDown_toNat (t : Byte) : (countDown t).toNat = t.toNat - 1 := by
  unfold countDown
  split
  · rename_i h
    have : (1 : Byte).toNat ≤ t.toNat := h
    rw [BitVec.toNat_sub_of_le (BitVec.le_def.mpr this)]; rfl
  · omega

/-! ## The footprints -/

theorem Frame.refl (f : Footprint) (s : State) : Frame f s s := by
  constructor <;> intros <;> rfl

/-- Raising a fault touches the latch alone (R14, R118). -/
theorem State.raise_frame (s : State) (f : CoreFault) : Frame { fault := true } s (s.raise f) := by
  constructor <;> intros <;> first | rfl | contradiction

end Sys2Proof.Machine
end

