-- ==== Sys2Proof/Laws/Ops.lean ====
section
/-! SUPPORT. One spec lemma for each shared operation of Machine/Ops.lean and for the scan of Machine/Draw.lean: what it
can answer, said once. -/

namespace Sys2Proof.Machine

/-! ## Bounds, fetch -/

theorem inBounds_iff (a n : Nat) : inBounds a n = true ↔ a + n ≤ 4096 := by simp [inBounds]

theorem dataInBounds_iff (a n : Nat) : dataInBounds a n = true ↔ n = 0 ∨ a + n ≤ 4096 := by simp [dataInBounds, inBounds]

theorem inBounds_false_iff (a n : Nat) : inBounds a n = false ↔ 4096 < a + n := by simp [inBounds]

/-- R111: a fetch inside memory gives the word at PC. -/
theorem State.fetch_inside {s : State} (h : s.pc.toNat ≤ 0xFFE) :
    s.fetch = some (wordOfBytes (s.loadByte s.pc.toNat) (s.loadByte (s.pc.toNat + 1))) := by
  unfold State.fetch
  rw [if_pos ((inBounds_iff _ _).2 (by omega))]

/-- R111: a fetch past memory gives none. -/
theorem State.fetch_outside {s : State} (h : s.pc.toNat > 0xFFE) : s.fetch = none := by
  unfold State.fetch
  rw [if_neg (by rw [inBounds_iff]; omega)]

/-- The host's key write changes nothing that the fetch reads. -/
@[simp] theorem State.takeKeys_fetch (s : State) : s.takeKeys.fetch = s.fetch := by
  simp [State.fetch, State.loadByte]

theorem wordOfBytes_toNat (hi lo : Byte) : (wordOfBytes hi lo).toNat = hi.toNat * 256 + lo.toNat := by
  have h1 := hi.isLt
  have h2 := lo.isLt
  simp only [wordOfBytes, BitVec.toNat_ofNat]
  omega

/-- R50: a word's bytes, put together, are the word. -/
theorem wordOfBytes_bytesOfWord (op : Word) :
    wordOfBytes (BitVec.ofNat 8 (op.toNat / 256)) (BitVec.ofNat 8 op.toNat) = op := by
  apply BitVec.eq_of_toNat_eq
  have := op.isLt
  rw [wordOfBytes_toNat]
  simp only [BitVec.toNat_ofNat]
  omega

/-! ## Stack -/

/-- R142: what a push answers. -/
theorem State.push_cases (s : State) (w : Word) :
    (∃ _h : s.sp.val < 16, s.push w = some { s with stack := s.stack.set s.sp.val w, sp := ⟨s.sp.val + 1, by omega⟩ }) ∨
    (s.sp.val = 16 ∧ s.push w = none) := by
  have := s.sp.isLt
  by_cases h : s.sp.val < 16
  · exact .inl ⟨h, dif_pos h⟩
  · exact .inr ⟨by omega, dif_neg h⟩

/-- R140: what a pop answers. -/
theorem State.pop_cases (s : State) :
    (∃ _h : s.sp.val ≠ 0, s.pop = some (s.stack[s.sp.val - 1], { s with sp := ⟨s.sp.val - 1, by omega⟩ })) ∨
    (s.sp.val = 0 ∧ s.pop = none) := by
  by_cases h : s.sp.val = 0
  · exact .inr ⟨h, dif_pos h⟩
  · exact .inl ⟨h, dif_neg h⟩

/-! ## The block load (R199) -/

/-- Register `r` after the block load of `n` registers: its byte of the block, or its old value. -/
theorem loadBlock_get (m : Memory) (base n : Nat) (v : Vector Byte 16) (r : Nibble) :
    (loadBlock m base n v)[r.val] = if r.val < n then Memory.read m (base + r.val) else v[r.val] := by
  induction n with
  | zero => simp [loadBlock]
  | succ k ih =>
    rw [loadBlock, Vector.getElem_setIfInBounds, ih]
    by_cases h : k = r.val
    · simp [h]
    · rw [if_neg h]
      by_cases hlt : r.val < k
      · rw [if_pos hlt, if_pos (by omega)]
      · rw [if_neg hlt, if_neg (by omega)]

/-! ## The framebuffer and the scan of Draw (R210 to R212) -/

theorem Framebuffer.cell_setCell (fb : Framebuffer) (r r' : Fin 32) (c c' : Fin 64) (b : Bool) :
    (fb.setCell r c b).cell r' c' = if r' = r ∧ c' = c then b else fb.cell r' c' := by
  unfold Framebuffer.cell Framebuffer.setCell
  by_cases hr : r' = r
  · subst hr
    by_cases hc : c' = c
    · subst hc; simp
    · have : c.val ≠ c'.val := fun e => hc (Fin.ext e.symm)
      simp [hc, this]
  · have : r.val ≠ r'.val := fun e => hr (Fin.ext e.symm)
    simp [hr, this]

theorem Framebuffer.ext_cell {f g : Framebuffer} (h : ∀ r c, f.cell r c = g.cell r c) : f = g := by
  apply Vector.ext
  intro r hr
  apply Vector.ext
  intro c hc
  exact h ⟨r, hr⟩ ⟨c, hc⟩

/-- Two of the eight columns of a sprite row are different cells (R212: 8 is at most 64). -/
theorem pixelCol_inj (xc : Byte) {j k : Nat} (hj : j < 8) (hk : k < 8) (h : pixelCol xc j = pixelCol xc k) : j = k := by
  have := congrArg Fin.val h
  simp only [pixelCol] at this
  omega

/-- Two of the at most 15 rows of a sprite are different rows (R212: 15 is at most 32). -/
theorem pixelRow_inj (yc : Byte) {i k : Nat} (hi : i < 15) (hk : k < 15) (h : pixelRow yc i = pixelRow yc k) : i = k := by
  have := congrArg Fin.val h
  simp only [pixelRow] at this
  omega

/-- A cell after the scan of the first `n` columns of a sprite row: flipped if it is one of them and its bit is 1. -/
theorem drawRow_cell (r : Fin 32) (xc row : Byte) {n : Nat} (hn : n ≤ 8) (acc : Framebuffer × Bool)
    (r' : Fin 32) (c' : Fin 64) :
    (drawRow r xc row n acc).1.cell r' c' =
      (acc.1.cell r' c' ^^ decide (r' = r ∧ ∃ j, j < n ∧ c' = pixelCol xc j ∧ spriteBit row j = true)) := by
  induction n with
  | zero => simp [drawRow]
  | succ j ih =>
    have ih := ih (by omega)
    simp only [drawRow, drawPixel, Framebuffer.cell_setCell]
    by_cases h : r' = r ∧ c' = pixelCol xc j
    · obtain ⟨rfl, rfl⟩ := h
      rw [if_pos ⟨rfl, rfl⟩, ih]
      have e1 : decide (r' = r' ∧ ∃ k, k < j ∧ pixelCol xc j = pixelCol xc k ∧ spriteBit row k = true) = false := by
        rw [decide_eq_false_iff_not]
        rintro ⟨_, k, hk, e, _⟩
        have := pixelCol_inj xc (j := j) (k := k) (by omega) (by omega) e
        omega
      have e2 : decide (r' = r' ∧ ∃ k, k < j + 1 ∧ pixelCol xc j = pixelCol xc k ∧ spriteBit row k = true) =
          spriteBit row j := by
        cases hb : spriteBit row j
        · rw [decide_eq_false_iff_not]
          rintro ⟨_, k, hk, e, hs⟩
          have := pixelCol_inj xc (j := j) (k := k) (by omega) (by omega) e
          subst this
          rw [hb] at hs
          exact absurd hs (by decide)
        · rw [decide_eq_true_iff]
          exact ⟨rfl, j, by omega, rfl, hb⟩
      rw [e1, e2]
      simp
    · rw [if_neg h, ih]
      congr 1
      rw [decide_eq_decide]
      constructor
      · rintro ⟨e, k, hk, rest⟩
        exact ⟨e, k, by omega, rest⟩
      · rintro ⟨e, k, hk, ec, rest⟩
        refine ⟨e, k, ?_, ec, rest⟩
        rcases Nat.lt_or_ge k j with hkj | hkj
        · exact hkj
        · have : k = j := by omega
          subst this
          exact absurd ⟨e, ec⟩ h

/-- The collision after the scan of the first `n` columns: seen before, or some cell of them held 1 and received 1. -/
theorem drawRow_hit (r : Fin 32) (xc row : Byte) {n : Nat} (hn : n ≤ 8) (acc : Framebuffer × Bool) :
    (drawRow r xc row n acc).2 = true ↔
      acc.2 = true ∨ ∃ j, j < n ∧ acc.1.cell r (pixelCol xc j) = true ∧ spriteBit row j = true := by
  induction n with
  | zero => simp [drawRow]
  | succ j ih =>
    have ih := ih (by omega)
    have hcell : (drawRow r xc row j acc).1.cell r (pixelCol xc j) = acc.1.cell r (pixelCol xc j) := by
      rw [drawRow_cell r xc row (by omega)]
      have : decide (r = r ∧ ∃ k, k < j ∧ pixelCol xc j = pixelCol xc k ∧ spriteBit row k = true) = false := by
        rw [decide_eq_false_iff_not]
        rintro ⟨_, k, hk, e, _⟩
        have := pixelCol_inj xc (j := j) (k := k) (by omega) (by omega) e
        omega
      rw [this]
      simp
    simp only [drawRow, drawPixel, hcell, Bool.or_eq_true, Bool.and_eq_true, ih]
    constructor
    · rintro ((h | ⟨k, hk, rest⟩) | h)
      · exact .inl h
      · exact .inr ⟨k, by omega, rest⟩
      · exact .inr ⟨j, by omega, h⟩
    · rintro (h | ⟨k, hk, rest⟩)
      · exact .inl (.inl h)
      · rcases Nat.lt_or_ge k j with hkj | hkj
        · exact .inl (.inr ⟨k, hkj, rest⟩)
        · have : k = j := by omega
          subst this
          exact .inr rest

/-- Whether the sprite of `n` rows at `base` puts a 1 on the cell at row `r`, column `c` (R211, R212). -/
abbrev spriteCovers (m : Memory) (base : Nat) (xc yc : Byte) (n : Nat) (r : Fin 32) (c : Fin 64) : Prop :=
  ∃ i, i < n ∧ r = pixelRow yc i ∧
    ∃ j, j < 8 ∧ c = pixelCol xc j ∧ spriteBit (Memory.read m (base + i)) j = true

theorem spriteCovers_zero (m : Memory) (base : Nat) (xc yc : Byte) (r : Fin 32) (c : Fin 64) :
    ¬ spriteCovers m base xc yc 0 r c := by
  rintro ⟨i, hi, _⟩
  omega

/-- The first `i` rows of a sprite do not reach row `i`. -/
theorem spriteCovers_pixelRow {m : Memory} {base i : Nat} {xc yc : Byte} {c : Fin 64} (hi : i < 15) :
    ¬ spriteCovers m base xc yc i (pixelRow yc i) c := by
  rintro ⟨k, hk, e, _⟩
  have := pixelRow_inj yc (i := i) (k := k) hi (by omega) e
  omega

/-- One more sprite row: what the earlier ones cover, or what the last one covers. -/
theorem spriteCovers_succ (m : Memory) (base : Nat) (xc yc : Byte) (i : Nat) (r : Fin 32) (c : Fin 64) :
    spriteCovers m base xc yc (i + 1) r c ↔ spriteCovers m base xc yc i r c ∨
      (r = pixelRow yc i ∧ ∃ j, j < 8 ∧ c = pixelCol xc j ∧ spriteBit (Memory.read m (base + i)) j = true) := by
  constructor
  · rintro ⟨k, hk, rest⟩
    rcases Nat.lt_or_ge k i with h | h
    · exact .inl ⟨k, h, rest⟩
    · have : k = i := by omega
      subst this
      exact .inr rest
  · rintro (⟨k, hk, rest⟩ | h)
    · exact ⟨k, by omega, rest⟩
    · exact ⟨i, by omega, h⟩

/-- R212: a cell after the whole scan is flipped exactly when the sprite puts a 1 on it. -/
theorem drawRows_cell (m : Memory) (base : Nat) (xc yc : Byte) {n : Nat} (hn : n ≤ 15) (acc : Framebuffer × Bool)
    (r : Fin 32) (c : Fin 64) :
    (drawRows m base xc yc n acc).1.cell r c = (acc.1.cell r c ^^ decide (spriteCovers m base xc yc n r c)) := by
  induction n with
  | zero => rw [decide_eq_false (spriteCovers_zero m base xc yc r c)]; simp [drawRows]
  | succ i ih =>
    simp only [drawRows]
    rw [drawRow_cell _ _ _ (Nat.le_refl 8), ih (by omega), Bool.xor_assoc]
    congr 1
    have hs := spriteCovers_succ m base xc yc i r c
    by_cases hr : r = pixelRow yc i
    · have h0 : ¬ spriteCovers m base xc yc i r c := hr ▸ spriteCovers_pixelRow (by omega)
      rw [decide_eq_false h0, Bool.false_xor, decide_eq_decide]
      exact (hs.trans (or_iff_right h0)).symm
    · have h1 : ¬ (r = pixelRow yc i ∧ ∃ j, j < 8 ∧ c = pixelCol xc j ∧
        spriteBit (Memory.read m (base + i)) j = true) := fun h => hr h.1
      rw [decide_eq_false h1, Bool.xor_false, decide_eq_decide]
      exact (hs.trans (or_iff_left h1)).symm

/-- R212: the collision after the whole scan: seen before, or some cell the sprite puts a 1 on held 1. -/
theorem drawRows_hit (m : Memory) (base : Nat) (xc yc : Byte) {n : Nat} (hn : n ≤ 15) (acc : Framebuffer × Bool) :
    (drawRows m base xc yc n acc).2 = true ↔
      acc.2 = true ∨ ∃ r c, spriteCovers m base xc yc n r c ∧ acc.1.cell r c = true := by
  induction n with
  | zero => simp [drawRows]
  | succ i ih =>
    have hcell : ∀ c, (drawRows m base xc yc i acc).1.cell (pixelRow yc i) c = acc.1.cell (pixelRow yc i) c := by
      intro c
      rw [drawRows_cell m base xc yc (by omega), decide_eq_false (spriteCovers_pixelRow (by omega)), Bool.xor_false]
    simp only [drawRows]
    rw [drawRow_hit _ _ _ (Nat.le_refl 8), ih (by omega)]
    simp only [hcell, spriteCovers_succ]
    constructor
    · rintro ((h | ⟨r, c, hs, hb⟩) | ⟨j, hj, hb, hs⟩)
      · exact .inl h
      · exact .inr ⟨r, c, .inl hs, hb⟩
      · exact .inr ⟨_, _, .inr ⟨rfl, j, hj, rfl, hs⟩, hb⟩
    · rintro (h | ⟨r, c, hs | ⟨er, j, hj, ec, hs⟩, hb⟩)
      · exact .inl (.inl h)
      · exact .inl (.inr ⟨r, c, hs, hb⟩)
      · subst er ec
        exact .inr ⟨j, hj, hb, hs⟩

end Sys2Proof.Machine
end

