-- ==== Sys2Proof/Laws/Exec.lean ====
section
/-! SUPPORT. What each instruction can answer, said once: its one next state, or for the five that may raise, the two.
No meaning ever answers a fault or a refusal. -/

namespace Sys2Proof.Machine

variable (x y n : Nibble) (kk : Byte) (nnn : Addr12) (s : State)

@[simp] theorem exec_jump : exec (.jump nnn) s = .next (s.setPc (zext16 nnn)) := rfl
@[simp] theorem exec_skipIfEqual : exec (.skipIfEqual x kk) s = .next (s.skipIf (s.reg x == kk)) := rfl
@[simp] theorem exec_skipIfNotEqual : exec (.skipIfNotEqual x kk) s = .next (s.skipIf (s.reg x != kk)) := rfl
@[simp] theorem exec_loadConstant : exec (.loadConstant x kk) s = .next (s.setReg x kk).advance := rfl
@[simp] theorem exec_addConstant : exec (.addConstant x kk) s = .next (s.setReg x (s.reg x + kk)).advance := rfl
@[simp] theorem exec_load : exec (.load x y) s = .next (s.setReg x (s.reg y)).advance := rfl
@[simp] theorem exec_and : exec (.and x y) s = .next (s.setReg x (s.reg x &&& s.reg y)).advance := rfl
@[simp] theorem exec_add : exec (.add x y) s =
    .next ((s.setReg x (s.reg x + s.reg y)).setFlag (carryFlag (s.reg x) (s.reg y))).advance := rfl
@[simp] theorem exec_sub : exec (.sub x y) s =
    .next ((s.setReg x (s.reg x - s.reg y)).setFlag (greaterFlag (s.reg x) (s.reg y))).advance := rfl
@[simp] theorem exec_randomAnd : exec (.randomAnd x kk) s = .next (s.setReg x (s.rnd &&& kk)).advance := rfl
@[simp] theorem exec_setAddress : exec (.setAddress nnn) s = .next (s.setIndex (zext16 nnn)).advance := rfl
@[simp] theorem exec_setFontLocation : exec (.setFontLocation x) s = .next (s.setIndex (fontAddr (s.reg x))).advance := rfl
@[simp] theorem exec_skipIfNotPressed : exec (.skipIfNotPressed x) s = .next (s.skipIf (! s.keys[x.val])) := rfl
@[simp] theorem exec_loadDelay : exec (.loadDelay x) s = .next (s.setReg x s.dt).advance := rfl
@[simp] theorem exec_setDelay : exec (.setDelay x) s = .next (s.setDelayTimer (s.reg x)).advance := rfl
@[simp] theorem exec_notImplemented (op : Word) :
    exec (.notImplemented op) s = .next (s.raise (.instructionNotImplemented op)) := rfl

/-- R140: the two answers of Return. -/
theorem exec_ret_cases :
    (∃ _h : s.sp.val ≠ 0, exec .ret s =
      .next (({ s with sp := ⟨s.sp.val - 1, by omega⟩ } : State).setPc s.stack[s.sp.val - 1])) ∨
    (s.sp.val = 0 ∧ exec .ret s = .next (s.raise .stackUnderflow)) := by
  rcases s.pop_cases with ⟨h, e⟩ | ⟨h, e⟩
  · exact .inl ⟨h, by simp only [exec, execRet, e]⟩
  · exact .inr ⟨h, by simp only [exec, execRet, e]⟩

/-- R142: the two answers of Call. -/
theorem exec_call_cases :
    (∃ _h : s.sp.val < 16, exec (.call nnn) s =
      .next (({ s with stack := s.stack.set s.sp.val s.pc, sp := ⟨s.sp.val + 1, by omega⟩ } : State).setPc (zext16 nnn))) ∨
    (s.sp.val = 16 ∧ exec (.call nnn) s = .next (s.raise .stackOverflow)) := by
  rcases s.push_cases s.pc with ⟨h, e⟩ | ⟨h, e⟩
  · exact .inl ⟨h, by simp only [exec, execCall, e]⟩
  · exact .inr ⟨h, by simp only [exec, execCall, e]⟩

/-- R196: the two answers of SetBCD. -/
theorem exec_setBCD_cases :
    (s.i.toNat + 3 ≤ 4096 ∧ exec (.setBCD x) s =
      .next ((((s.storeByte s.i.toNat (bcdHundreds (s.reg x))).storeByte (s.i.toNat + 1)
        (bcdTens (s.reg x))).storeByte (s.i.toNat + 2) (bcdOnes (s.reg x))).advance)) ∨
    (4096 < s.i.toNat + 3 ∧ exec (.setBCD x) s =
      .next (s.raise (.memoryOutOfBounds (BitVec.ofNat 16 (s.i.toNat + 2))))) := by
  by_cases h : s.i.toNat + 3 ≤ 4096
  · exact .inl ⟨h, if_pos ((dataInBounds_iff _ _).2 (.inr h))⟩
  · exact .inr ⟨by omega, if_neg (by rw [dataInBounds_iff]; omega)⟩

/-- R199: the two answers of LoadRegisters. -/
theorem exec_loadRegisters_cases :
    (s.i.toNat + (x.val + 1) ≤ 4096 ∧ exec (.loadRegisters x) s =
      .next ({ s with v := loadBlock s.mem s.i.toNat (x.val + 1) s.v } : State).advance) ∨
    (4096 < s.i.toNat + (x.val + 1) ∧ exec (.loadRegisters x) s =
      .next (s.raise (.memoryOutOfBounds (BitVec.ofNat 16 (s.i.toNat + x.val))))) := by
  by_cases h : s.i.toNat + (x.val + 1) ≤ 4096
  · exact .inl ⟨h, if_pos ((dataInBounds_iff _ _).2 (.inr h))⟩
  · exact .inr ⟨by omega, if_neg (by rw [dataInBounds_iff]; omega)⟩

/-- R210: the two answers of Draw; a count of 0 never raises. -/
theorem exec_draw_cases :
    ((n.val = 0 ∨ s.i.toNat + n.val ≤ 4096) ∧ exec (.draw x y n) s =
      .next (({ s with fb := (drawRows s.mem s.i.toNat (s.reg x) (s.reg y) n.val (s.fb, false)).1 } : State).setFlag
        (collisionFlag (drawRows s.mem s.i.toNat (s.reg x) (s.reg y) n.val (s.fb, false)).2)).advance) ∨
    ((0 < n.val ∧ 4096 < s.i.toNat + n.val) ∧ exec (.draw x y n) s =
      .next (s.raise (.memoryOutOfBounds (BitVec.ofNat 16 (s.i.toNat + n.val - 1))))) := by
  by_cases h : n.val = 0 ∨ s.i.toNat + n.val ≤ 4096
  · exact .inl ⟨h, if_pos ((dataInBounds_iff _ _).2 h)⟩
  · exact .inr ⟨by omega, if_neg (by rw [dataInBounds_iff]; exact h)⟩

/-- No instruction stops the machine: each answers a next state, whatever the state. -/
theorem exec_next (i : Instr) (s : State) : ∃ t, exec i s = .next t := by
  cases i with
  | ret => rcases exec_ret_cases s with ⟨_, e⟩ | ⟨_, e⟩ <;> exact ⟨_, e⟩
  | call nnn => rcases exec_call_cases nnn s with ⟨_, e⟩ | ⟨_, e⟩ <;> exact ⟨_, e⟩
  | setBCD x => rcases exec_setBCD_cases x s with ⟨_, e⟩ | ⟨_, e⟩ <;> exact ⟨_, e⟩
  | loadRegisters x => rcases exec_loadRegisters_cases x s with ⟨_, e⟩ | ⟨_, e⟩ <;> exact ⟨_, e⟩
  | draw x y n => rcases exec_draw_cases x y n s with ⟨_, e⟩ | ⟨_, e⟩ <;> exact ⟨_, e⟩
  | _ => exact ⟨_, rfl⟩

/-- Every instruction either raises one fault, and then does nothing else, or leaves the latch alone. -/
theorem exec_raises_or_keeps_fault {i : Instr} {s t : State} (h : exec i s = .next t) :
    (∃ f, t = s.raise f) ∨ t.fault = s.fault := by
  cases i with
  | ret =>
    rcases exec_ret_cases s with ⟨_, e⟩ | ⟨_, e⟩ <;> rw [e] at h <;> injection h with h <;> subst h
    exacts [.inr rfl, .inl ⟨_, rfl⟩]
  | call nnn =>
    rcases exec_call_cases nnn s with ⟨_, e⟩ | ⟨_, e⟩ <;> rw [e] at h <;> injection h with h <;> subst h
    exacts [.inr rfl, .inl ⟨_, rfl⟩]
  | setBCD x =>
    rcases exec_setBCD_cases x s with ⟨_, e⟩ | ⟨_, e⟩ <;> rw [e] at h <;> injection h with h <;> subst h
    exacts [.inr rfl, .inl ⟨_, rfl⟩]
  | loadRegisters x =>
    rcases exec_loadRegisters_cases x s with ⟨_, e⟩ | ⟨_, e⟩ <;> rw [e] at h <;> injection h with h <;> subst h
    exacts [.inr rfl, .inl ⟨_, rfl⟩]
  | draw x y n =>
    rcases exec_draw_cases x y n s with ⟨_, e⟩ | ⟨_, e⟩ <;> rw [e] at h <;> injection h with h <;> subst h
    exacts [.inr rfl, .inl ⟨_, rfl⟩]
  | notImplemented op => injection h with h; exact .inl ⟨_, h.symm⟩
  | _ => injection h with h; subst h; exact .inr rfl

/-! ## Frames of the common shapes -/

/-- Writing one register and advancing touches that register and the PC alone. -/
theorem setReg_advance_frame (s : State) (x : Nibble) (b : Byte) :
    Frame { regs := fun r => r == x, pc := true } s (s.setReg x b).advance := by
  constructor <;> intros <;> first | rfl | contradiction | skip
  rename_i r hr
  have : x.val ≠ r.val := fun e => by simp [Fin.ext_iff] at hr; omega
  simp [this]

/-- Writing one register, then VF, and advancing touches those two and the PC alone. -/
theorem setReg_setFlag_advance_frame (s : State) (x : Nibble) (b flag : Byte) :
    Frame { regs := fun r => r == x || r == 15, pc := true } s ((s.setReg x b).setFlag flag).advance := by
  constructor <;> intros <;> first | rfl | contradiction | skip
  rename_i r hr
  simp [Fin.ext_iff] at hr
  have h1 : x.val ≠ r.val := by omega
  have h2 : (15 : Nat) ≠ r.val := by omega
  simp [h1, h2]

/-- A skip touches the PC alone. -/
theorem skipIf_frame (s : State) (c : Bool) : Frame { pc := true } s (s.skipIf c) := by
  constructor <;> intros <;> first | rfl | contradiction

/-! ## The step -/

/-- R110: the three things a step can do. -/
theorem step_cases (s : State) :
    (∃ cause, s.fault = some cause ∧ step s = .fault (.halted cause)) ∨
    (s.fault = none ∧ s.pc.toNat > 0xFFE ∧ step s = .next (s.takeKeys.raise (.fetchOutOfBounds s.pc))) ∨
    (∃ i t, s.fetches i ∧ exec i s.takeKeys = .next t ∧ step s = .next t.complete) := by
  cases hf : s.fault with
  | some cause => exact .inl ⟨cause, rfl, by simp only [step, hf]⟩
  | none =>
    by_cases hp : s.pc.toNat ≤ 0xFFE
    · obtain ⟨t, ht⟩ :=
        exec_next (decodeWord (wordOfBytes (s.loadByte s.pc.toNat) (s.loadByte (s.pc.toNat + 1)))) s.takeKeys
      refine .inr (.inr ⟨_, t, ⟨hf, hp, rfl⟩, ht, ?_⟩)
      simp only [step, hf, State.takeKeys_fetch, State.fetch_inside hp, ht, afterExec]
    · refine .inr (.inl ⟨rfl, by omega, ?_⟩)
      simp only [step, hf, State.takeKeys_fetch, State.fetch_outside (Nat.lt_of_not_le hp)]

/-- A step that fetches `i` is `exec i` after the host's key write, then the completion. -/
theorem step_of_fetches {s t : State} {i : Instr} (h : s.fetches i) (ht : exec i s.takeKeys = .next t) :
    step s = .next t.complete := by
  obtain ⟨hf, hp, hd⟩ := h
  simp only [State.running] at hf
  simp only [step, hf, State.takeKeys_fetch, State.fetch_inside hp, hd, ht, afterExec]

end Sys2Proof.Machine
end

