-- ==== Sys2Proof/Laws/PerInstr.lean ====
section
/-! SUPPORT. The family EncodedRow: the word an instruction is encoded as is selected by the row of the opcode map (spec/30_encoding.md
R85) that bears its mnemonic, and by no other row. One lemma for each constructor. -/

namespace Sys2Proof.Laws.EncodedRow

/-- The rows that select the word of `i` are those that bear its mnemonic. -/
def Statement (i : Instr) : Prop :=
  i.wellFormed = true → ∀ row ∈ opcodeTable, row.selects (encode i) = true ↔ row.mnemonic = i.mnemonic

/-- A row selects a word when the masked word is the row's code, as numbers. -/
theorem selects_iff (row : OpcodeRow) (op : Word) :
    row.selects op = true ↔ (op &&& row.mask).toNat = row.code.toNat := by
  rw [OpcodeRow.selects, beq_iff_eq, ← BitVec.toNat_inj]

/-- What a row compares of a word: the word under the row's mask, from its fields. -/
def masked (row : OpcodeRow) (op : Word) : Nat :=
  if row.mask = 0xF000#16 then field op 12 4 * 0x1000
  else if row.mask = 0xF00F#16 then field op 12 4 * 0x1000 + field op 0 4
  else if row.mask = 0xF0FF#16 then field op 12 4 * 0x1000 + field op 0 8
  else op.toNat

/-- The opcode map has four masks. -/
theorem mask_cases : ∀ row ∈ opcodeTable,
    row.mask = 0xF000#16 ∨ row.mask = 0xF00F#16 ∨ row.mask = 0xF0FF#16 ∨ row.mask = 0xFFFF#16 := by
  decide

/-- A row selects a word by the fields under its mask. -/
theorem selects_masked {row : OpcodeRow} (hrow : row ∈ opcodeTable) (op : Word) :
    row.selects op = true ↔ masked row op = row.code.toNat := by
  obtain ⟨h1, h2, h3, h4⟩ := and_mask_toNat op
  rw [selects_iff]
  rcases mask_cases row hrow with e | e | e | e <;> simp [masked, e, h1, h2, h3, h4]

/-- From the family, the function nibble, the function byte and the whole word of `op`: the rows that select it. -/
theorem statement_of_fields {op : Word} {name : String}
    (h : ∀ row ∈ opcodeTable, masked row op = row.code.toNat ↔ row.mnemonic = name) :
    ∀ row ∈ opcodeTable, row.selects op = true ↔ row.mnemonic = name :=
  fun row hrow => (selects_masked hrow op).trans (h row hrow)

theorem ret : Statement .ret := by
  intro _
  apply statement_of_fields
  decide

theorem jump (nnn : Addr12) : Statement (.jump nnn) := by
  intro _
  apply statement_of_fields
  have := nnn.isLt
  simp [opcodeTable, masked, encode, Instr.mnemonic, field, encodeNNN_toNat]
  omega

theorem call (nnn : Addr12) : Statement (.call nnn) := by
  intro _
  apply statement_of_fields
  have := nnn.isLt
  simp [opcodeTable, masked, encode, Instr.mnemonic, field, encodeNNN_toNat]
  omega

theorem skipIfEqual (x : Nibble) (kk : Byte) : Statement (.skipIfEqual x kk) := by
  intro _
  apply statement_of_fields
  have := kk.isLt
  simp [opcodeTable, masked, encode, Instr.mnemonic, field, encodeXKK_toNat]
  omega

theorem skipIfNotEqual (x : Nibble) (kk : Byte) : Statement (.skipIfNotEqual x kk) := by
  intro _
  apply statement_of_fields
  have := kk.isLt
  simp [opcodeTable, masked, encode, Instr.mnemonic, field, encodeXKK_toNat]
  omega

theorem loadConstant (x : Nibble) (kk : Byte) : Statement (.loadConstant x kk) := by
  intro _
  apply statement_of_fields
  have := kk.isLt
  simp [opcodeTable, masked, encode, Instr.mnemonic, field, encodeXKK_toNat]
  omega

theorem addConstant (x : Nibble) (kk : Byte) : Statement (.addConstant x kk) := by
  intro _
  apply statement_of_fields
  have := kk.isLt
  simp [opcodeTable, masked, encode, Instr.mnemonic, field, encodeXKK_toNat]
  omega

theorem load (x y : Nibble) : Statement (.load x y) := by
  intro _
  apply statement_of_fields
  simp [opcodeTable, masked, encode, Instr.mnemonic, field, encodeXYN_toNat]
  omega

theorem and (x y : Nibble) : Statement (.and x y) := by
  intro _
  apply statement_of_fields
  simp [opcodeTable, masked, encode, Instr.mnemonic, field, encodeXYN_toNat]
  omega

theorem add (x y : Nibble) : Statement (.add x y) := by
  intro _
  apply statement_of_fields
  simp [opcodeTable, masked, encode, Instr.mnemonic, field, encodeXYN_toNat]
  omega

theorem sub (x y : Nibble) : Statement (.sub x y) := by
  intro _
  apply statement_of_fields
  simp [opcodeTable, masked, encode, Instr.mnemonic, field, encodeXYN_toNat]
  omega

theorem setAddress (nnn : Addr12) : Statement (.setAddress nnn) := by
  intro _
  apply statement_of_fields
  have := nnn.isLt
  simp [opcodeTable, masked, encode, Instr.mnemonic, field, encodeNNN_toNat]
  omega

theorem randomAnd (x : Nibble) (kk : Byte) : Statement (.randomAnd x kk) := by
  intro _
  apply statement_of_fields
  have := kk.isLt
  simp [opcodeTable, masked, encode, Instr.mnemonic, field, encodeXKK_toNat]
  omega

theorem draw (x y n : Nibble) : Statement (.draw x y n) := by
  intro _
  apply statement_of_fields
  simp [opcodeTable, masked, encode, Instr.mnemonic, field, encodeXYN_toNat]
  omega

theorem skipIfNotPressed (x : Nibble) : Statement (.skipIfNotPressed x) := by
  intro _
  apply statement_of_fields
  simp [opcodeTable, masked, encode, Instr.mnemonic, field, encodeXFF_toNat]
  omega

theorem loadDelay (x : Nibble) : Statement (.loadDelay x) := by
  intro _
  apply statement_of_fields
  simp [opcodeTable, masked, encode, Instr.mnemonic, field, encodeXFF_toNat]
  omega

theorem setDelay (x : Nibble) : Statement (.setDelay x) := by
  intro _
  apply statement_of_fields
  simp [opcodeTable, masked, encode, Instr.mnemonic, field, encodeXFF_toNat]
  omega

theorem setFontLocation (x : Nibble) : Statement (.setFontLocation x) := by
  intro _
  apply statement_of_fields
  simp [opcodeTable, masked, encode, Instr.mnemonic, field, encodeXFF_toNat]
  omega

theorem setBCD (x : Nibble) : Statement (.setBCD x) := by
  intro _
  apply statement_of_fields
  simp [opcodeTable, masked, encode, Instr.mnemonic, field, encodeXFF_toNat]
  omega

theorem loadRegisters (x : Nibble) : Statement (.loadRegisters x) := by
  intro _
  apply statement_of_fields
  simp [opcodeTable, masked, encode, Instr.mnemonic, field, encodeXFF_toNat]
  omega

theorem notImplemented (op : Word) : Statement (.notImplemented op) := by
  intro h
  apply statement_of_fields
  have := op.isLt
  rw [Instr.wellFormed, unassignedWord_iff] at h
  intro row hrow
  have hn : row.mnemonic ≠ (Instr.notImplemented op).mnemonic := by
    revert row; simp only [Instr.mnemonic]; decide
  simp only [hn, iff_false]
  simp only [opcodeTable, List.cons_append, List.nil_append, List.mem_cons, List.not_mem_nil, or_false] at hrow
  rcases hrow with rfl | rfl | rfl | rfl | rfl | rfl | rfl | rfl | rfl | rfl | rfl | rfl | rfl | rfl | rfl | rfl | rfl |
    rfl | rfl | rfl <;> simp [masked, encode, field] <;> omega

end Sys2Proof.Laws.EncodedRow
end

