-- ==== Sys2Proof/Tests/Slice0.lean ====
section
/-! SUPPORT. The model's own tests. Expected results are those of spec/95_test_vectors.md (its section in each comment), or
read off the encodings of spec/30_encoding.md. A theorem named witness_… meets the hypotheses of an obligation. -/

namespace Sys2Proof.Tests

open Sys2Proof.Machine

/-- The next state of a step or an exec, if there is one. -/
def next? (o : Host.Outcome State Fault Refusal) : Option State :=
  match o with
  | .next s => some s
  | .fault _ => none
  | .refused _ => none

/-- Reset state with the given V0 and V1. -/
def withRegs (a b : Byte) : State := (State.reset.setReg 0 a).setReg 1 b

/-- One whole step of `s` with a word at its PC. -/
def run1 (s : State) (w : Nat) : Option State := next? (step (s.withFetchWord 16 w))

/-! ## WellFormed: for each range of R86 an ill-formed term, and a well-formed one -/

theorem test_wellFormed_refuses_family0 : (Instr.notImplemented 0x00EE).wellFormed = false := by decide
theorem test_wellFormed_refuses_family8 :
    [0x8120#16, 0x8122, 0x8124, 0x8125].all (fun op => ! (Instr.notImplemented op).wellFormed) = true := by decide
theorem test_wellFormed_refuses_familyE : (Instr.notImplemented 0xE3A1).wellFormed = false := by decide
theorem test_wellFormed_refuses_familyF :
    [0xF107#16, 0xF115, 0xF129, 0xF133, 0xF165].all (fun op => ! (Instr.notImplemented op).wellFormed) = true := by decide
theorem test_wellFormed_refuses_whole_families :
    [0x1ABC#16, 0x2400, 0x3F01, 0x4310, 0x6A3C, 0x7001, 0xA300, 0xC20F, 0xD563].all
      (fun op => ! (Instr.notImplemented op).wellFormed) = true := by decide
theorem test_wellFormed_accepts_unassigned :
    [0x0000#16, 0x00E0, 0x5120, 0x8121, 0x9120, 0xB123, 0xE19E, 0xF00A, 0xFFFF].all
      (fun op => (Instr.notImplemented op).wellFormed) = true := by decide

/-! ## Decoding: each constructor's word, bit by bit from the encoding column of the opcode table (R85, R90, V1) -/

theorem test_decode_ret : decodeWord 0b0000000011101110 = .ret := by decide
theorem test_decode_jump : decodeWord 0b0001101010111100 = .jump 0xABC := by decide
theorem test_decode_call : decodeWord 0b0010010000000000 = .call 0x400 := by decide
theorem test_decode_skipIfEqual : decodeWord 0b0011111100000001 = .skipIfEqual 0xF 0x01 := by decide
theorem test_decode_skipIfNotEqual : decodeWord 0b0100001100010000 = .skipIfNotEqual 0x3 0x10 := by decide
theorem test_decode_loadConstant : decodeWord 0b0110101000111100 = .loadConstant 0xA 0x3C := by decide
theorem test_decode_addConstant : decodeWord 0b0111000000000001 = .addConstant 0x0 0x01 := by decide
theorem test_decode_load : decodeWord 0b1000000100100000 = .load 0x1 0x2 := by decide
theorem test_decode_and : decodeWord 0b1000000100100010 = .and 0x1 0x2 := by decide
theorem test_decode_add : decodeWord 0b1000101010110100 = .add 0xA 0xB := by decide
theorem test_decode_sub : decodeWord 0b1000000000010101 = .sub 0x0 0x1 := by decide
theorem test_decode_setAddress : decodeWord 0b1010001100000000 = .setAddress 0x300 := by decide
theorem test_decode_randomAnd : decodeWord 0b1100001000001111 = .randomAnd 0x2 0x0F := by decide
theorem test_decode_draw : decodeWord 0b1101010101100011 = .draw 0x5 0x6 0x3 := by decide
theorem test_decode_skipIfNotPressed : decodeWord 0b1110000110100001 = .skipIfNotPressed 0x1 := by decide
theorem test_decode_loadDelay : decodeWord 0b1111000100000111 = .loadDelay 0x1 := by decide
theorem test_decode_setDelay : decodeWord 0b1111000000010101 = .setDelay 0x0 := by decide
theorem test_decode_setFontLocation : decodeWord 0b1111000100101001 = .setFontLocation 0x1 := by decide
theorem test_decode_setBCD : decodeWord 0b1111000000110011 = .setBCD 0x0 := by decide
theorem test_decode_loadRegisters : decodeWord 0b1111111101100101 = .loadRegisters 0xF := by decide
theorem test_decode_notImplemented : decodeWord 0b0000000111101110 = .notImplemented 0x01EE := by decide
/-- V1: the neighbours of defined words. -/
theorem test_decode_neighbours :
    [0x00EF#16, 0x8121, 0x8123, 0x8126, 0x8127, 0x812E, 0xE0A2, 0xF000, 0xF018, 0xF01E, 0xF055].all
      (fun op => decodeWord op == .notImplemented op) = true := by decide
theorem test_decode_bytes_high_first : decode [0x6A, 0x3C, 0x12] = .ok (.loadConstant 0xA 0x3C, [0x12]) := by decide
theorem test_decode_truncated : decode [0x6A] = .error (.truncated 1) := by decide
theorem test_decodeTableWord : decodeTableWord 16 0xD563 = some (.draw 5 6 3) := by decide

/-! ## One step of each instruction (V2 to V7) -/

/-- E7, step 2, and V3: SP = 16 pops STACK[15]. -/
theorem test_ret : (run1 { State.reset with pc := 0x300, sp := 16, stack := State.reset.stack.set 15 0x2F0 } 0x00EE).map
    (fun t => (t.pc, t.sp)) = some (0x2F0, 15) := by decide
theorem test_ret_underflow : (run1 State.reset 0x00EE).map (fun t => (t.pc, t.fault)) =
    some (0x200, some .stackUnderflow) := by decide
theorem test_jump : (run1 { State.reset with pc := 0x208 } 0x1204).map (·.pc) = some 0x204 := by decide
theorem test_call : (run1 { State.reset with pc := 0x206, sp := 15 } 0x2400).map
    (fun t => (t.pc, t.sp, t.stack[15])) = some (0x400, 16, 0x206) := by decide
theorem test_call_overflow : (run1 { State.reset with sp := 16 } 0x2400).map (fun t => (t.pc, t.sp, t.fault)) =
    some (0x200, 16, some .stackOverflow) := by decide
theorem test_skipIfEqual : ((run1 (withRegs 0x05 0) 0x3005).map (·.pc), (run1 (withRegs 0x06 0) 0x3005).map (·.pc)) =
    (some 0x204, some 0x202) := by decide
theorem test_skipIfEqual_at_the_end : (run1 { State.reset with pc := 0xFFE } 0x3000).map (·.pc) = some 0x1002 := by decide
theorem test_skipIfNotEqual : ((run1 (withRegs 0x0F 0) 0x4010).map (·.pc), (run1 (withRegs 0x10 0) 0x4010).map (·.pc)) =
    (some 0x204, some 0x202) := by decide
/-- R123, E2. -/
theorem test_loadConstant : (run1 State.reset 0x6A3C).map (fun t => (t.reg 0xA, t.pc)) = some (0x3C, 0x202) := by decide
theorem test_addConstant_no_carry : (run1 (withRegs 0xFF 0) 0x7001).map (fun t => (t.reg 0, t.reg 15)) =
    some (0x00, 0x00) := by decide
theorem test_addConstant_vf : (run1 (State.reset.setReg 15 0xFF) 0x7F01).map (·.reg 15) = some 0x00 := by decide
theorem test_load : (run1 (withRegs 0x33 0x7F) 0x8010).map (fun t => (t.reg 0, t.reg 1)) = some (0x7F, 0x7F) := by decide
theorem test_and_keeps_vf : (run1 ((withRegs 0xF0 0x3C).setReg 15 1) 0x8012).map (fun t => (t.reg 0, t.reg 15)) =
    some (0x30, 0x01) := by decide
/-- E3. -/
theorem test_add_carry : (run1 (withRegs 250 10) 0x8014).map (fun t => (t.reg 0, t.reg 15)) = some (4, 1) := by decide
/-- V4, D7: x = 15 keeps the carry, not the sum. -/
theorem test_add_into_vf : (run1 ((withRegs 0x02 0).setReg 15 0xFF) 0x8F04).map (·.reg 15) = some 0x01 := by decide
/-- E4. -/
theorem test_sub_borrow : (run1 (withRegs 5 10) 0x8015).map (fun t => (t.reg 0, t.reg 15)) = some (0xFB, 0) := by decide
/-- V4: the comparison is strict. -/
theorem test_sub_equal : (run1 ((withRegs 5 5).setReg 15 1) 0x8015).map (fun t => (t.reg 0, t.reg 15)) =
    some (0, 0) := by decide
/-- V4: kk = 0 is the only determined result. -/
theorem test_randomAnd_zero : ∀ s t, exec (.randomAnd 2 0x00) s = .next t → t.reg 2 = 0 := by
  intro s t h
  injection h with h
  subst h
  simp [State.reg]
theorem test_setAddress : (run1 State.reset 0xAFFF).map (·.i) = some 0xFFF := by decide
theorem test_setFontLocation : (run1 (withRegs 0xFF 0) 0xF029).map (·.i) = some 0x4FB := by decide
/-- E5. -/
theorem test_setBCD : (run1 { withRegs 234 0 with i := 0x300 } 0xF033).map
    (fun t => (t.loadByte 0x300, t.loadByte 0x301, t.loadByte 0x302)) = some (2, 3, 4) := by decide
/-- V5: one byte past the end. -/
theorem test_setBCD_outside : (run1 { withRegs 123 0 with i := 0xFFE } 0xF033).map (fun t => (t.pc, t.fault)) =
    some (0x200, some (.memoryOutOfBounds 0x1000)) := by decide
theorem test_loadRegisters : (run1 { withRegs 9 9 with i := 0x300, mem := [(0x300, 2), (0x301, 3), (0x302, 4)] } 0xF165).map
    (fun t => (t.reg 0, t.reg 1, t.reg 2)) = some (2, 3, 0) := by decide
theorem test_loadRegisters_outside : (run1 { State.reset with i := 0xFF1 } 0xFF65).map (fun t => (t.pc, t.fault)) =
    some (0x200, some (.memoryOutOfBounds 0x1000)) := by decide

/-- V6: both edges wrap. -/
def corner : State := { withRegs 62 31 with i := 0x300, mem := [(0x300, 0xC0), (0x301, 0xC0)] }

theorem test_draw_wraps : (run1 corner 0xD012).map (fun t => (t.pixelOn 63 31, t.pixelOn 62 0, t.pixelOn 0 0, t.reg 15)) =
    some (true, true, false, 0) := by decide
/-- V6: the twice-drawn vector. -/
theorem test_draw_twice : ((run1 corner 0xD012).bind fun t => next? (exec (.draw 0 1 2) t)).map
    (fun t => (t.pixelOn 63 31, t.pixelOn 62 0, t.reg 15)) = some (false, false, 1) := by decide
/-- R56, R210: a count of 0 never faults, wherever I points; it draws nothing and clears VF. -/
theorem test_draw_zero_rows : (run1 { State.reset.setReg 15 1 with i := 0x2000 } 0xD010).map
    (fun t => (t.fault, t.reg 15, t.pc, t.fb == State.reset.fb)) = some (none, 0, 0x202, true) := by decide
/-- V7: tests KEY[3], not KEY[V3]. -/
theorem test_skipIfNotPressed : ((run1 { State.reset with keys := State.reset.keys.set 3 true } 0xE3A1).map (·.pc),
    (run1 State.reset 0xE3A1).map (·.pc)) = (some 0x202, some 0x204) := by decide
/-- R266: a pending key write reaches the step. -/
theorem test_pending_keys : (run1 { State.reset with pendingKeys := [State.reset.keys.set 3 true] } 0xE3A1).map (·.pc) =
    some 0x202 := by decide
theorem test_loadDelay : (run1 { State.reset with dt := 4 } 0xF107).map (fun t => (t.reg 1, t.dt)) = some (4, 3) := by decide
theorem test_setDelay : (run1 { withRegs 0xFF 0 with st := 2 } 0xF015).map (fun t => (t.dt, t.st)) = some (0xFE, 1) := by
  decide
/-- E9, R293: the empty program. -/
theorem test_empty_program : (next? (step State.reset)).map (fun t => (t.pc, t.fault)) =
    some (0x200, some (.instructionNotImplemented 0)) := by decide
/-- V2: a faulting step does not count the timers. -/
theorem test_notImplemented_keeps_timers : (run1 { State.reset with dt := 5 } 0x0000).map (·.dt) = some 5 := by decide
/-- V2: PC = 0xFFF. -/
theorem test_fetch_outside : (next? (step { State.reset with pc := 0xFFF })).map (fun t => (t.pc, t.fault)) =
    some (0xFFF, some (.fetchOutOfBounds 0xFFF)) := by decide
/-- V2: a halted CORE takes no step. -/
theorem test_halted : step { State.reset with fault := some .stackOverflow } = .fault (.halted .stackOverflow) := rfl
/-- V2: an odd PC is fetched. -/
theorem test_odd_pc : (run1 { State.reset with pc := 0x203 } 0x6A3C).map (fun t => (t.pc, t.reg 0xA)) =
    some (0x205, 0x3C) := by decide
/-- R66: a byte SetBCD writes is fetched. -/
theorem test_self_modification : (run1 { withRegs 0x21 0 with i := 0x200 } 0xF033).map
    (fun t => wordOfBytes (t.loadByte 0x200) (t.loadByte 0x201)) = some 0x0003 := by decide
/-- V9: the load's window ends at 3583 bytes. -/
theorem test_load_order : (match State.reset.loadProgram (some [0x6A, 0x3C]) with
    | .loaded s => (s.loadByte 0x200, s.loadByte 0x201, s.loadByte 0x202)
    | _ => (1, 1, 1)) = (0x6A, 0x3C, 0x00) := by decide

/-! ## Witnesses: the hypotheses of the obligations are met, each clause at a boundary -/

/-- Reset with 6A3C at the entry point: the next step fetches LoadConstant. -/
def ready : State := State.reset.withFetchWord 16 0x6A3C

/-- Reset with Return at the last place an instruction can be fetched from, a full stack and running timers. -/
def last : State := { State.reset.withFetchWord 16 0 with pc := 0xFFE, mem := [(0xFFF, 0xEE)], sp := 16, dt := 1, st := 2 }

theorem witness_wellFormed : (Instr.notImplemented 0x5120).wellFormed = true ∧ (Instr.loadRegisters 15).wellFormed = true := by
  decide
theorem witness_table_row : ∃ row ∈ opcodeTable, row.selects 0x6A3C = true := ⟨⟨"LoadConstant", 0x6000, 0xF000⟩, by decide⟩
theorem witness_no_table_row : ∀ row ∈ opcodeTable, row.selects 0x5120 = false := by decide
theorem witness_fetch_boundary : last.pc.toNat + 1 ≤ 0xFFF ∧ ({ last with pc := 0xFFF } : State).pc.toNat + 1 > 0xFFF := by
  decide
theorem witness_fetches : ready.fetches (.loadConstant 0xA 0x3C) ∧ last.fetches .ret := by
  unfold State.fetches State.running
  decide
theorem witness_fetches_delay : (State.reset.withFetchWord 16 0xF107).fetches (.loadDelay 1) ∧
    (State.reset.withFetchWord 16 0xF015).fetches (.setDelay 0) := by
  unfold State.fetches State.running
  decide
theorem witness_step_of_ready : ∃ t, exec (.loadConstant 0xA 0x3C) ready.takeKeys = .next t ∧ t.fault = none ∧
    step ready = .next t.complete := ⟨_, rfl, rfl, step_of_fetches witness_fetches.1 rfl⟩
theorem witness_step_raises : ∃ t, State.reset.running ∧ step State.reset = .next t ∧ t.fault ≠ none := by
  obtain ⟨t, ht⟩ := exec_next (.notImplemented 0) State.reset.takeKeys
  have hf : State.reset.fetches (.notImplemented 0) := by unfold State.fetches State.running; decide
  refine ⟨_, hf.1, step_of_fetches hf ht, ?_⟩
  injection ht with ht
  subst ht
  simp
theorem witness_halted : ({ State.reset with fault := some .stackUnderflow } : State).fault = some .stackUnderflow := rfl
/-- One fetched word for each branch of the fault table, on both sides of each bound. -/
theorem witness_fault_table :
    ([(0x00EE, 0), (0x00EE, 1), (0x2400, 15), (0x2400, 16)].map fun (w, sp) =>
      (run1 { State.reset with sp := Fin.ofNat 17 sp } w).map (·.fault)) =
      [some (some .stackUnderflow), some none, some none, some (some .stackOverflow)] ∧
    ([(0xF033, 0xFFD), (0xF033, 0xFFE), (0xF265, 0xFFD), (0xF265, 0xFFE), (0xD012, 0xFFE), (0xD012, 0xFFF),
        (0xD010, 0x1000), (0xD010, 0x1001)].map
      fun (w, i) => (run1 { State.reset with i := BitVec.ofNat 16 i } w).map (·.fault)) =
      [some none, some (some (.memoryOutOfBounds 0x1000)), some none, some (some (.memoryOutOfBounds 0x1000)), some none,
        some (some (.memoryOutOfBounds 0x1000)), some none, some none] := by decide
theorem witness_return : last.sp.val = (15 : Fin 16).val + 1 ∧ State.reset.sp.val = 0 := by decide
theorem witness_call : ({ State.reset with sp := 15 } : State).sp.val = (15 : Fin 16).val ∧ last.sp.val = 16 := by decide
/-- The Return's state has the Call's slot 0, and another slot that something in between has written. -/
theorem witness_call_then_return : ∃ t, State.reset.sp.val = (0 : Fin 16).val ∧ exec (.call 0x400) State.reset = .next t ∧
    ({ t with stack := t.stack.set 1 0x402 } : State).sp = t.sp ∧ (t.stack.set 1 0x402)[(0 : Fin 16).val] = t.stack[(0 : Fin 16).val] ∧
    t.stack.set 1 0x402 ≠ t.stack := ⟨_, by decide, rfl, rfl, by decide, by decide⟩
theorem witness_bcd : Memory.wf ready.mem ∧ ({ ready with i := 0xFFD } : State).i.toNat ≤ 0xFFD ∧
    ({ ready with i := 0xFFE } : State).i.toNat > 0xFFD := by decide
theorem witness_loadRegisters : ({ ready with i := 0xFF0 } : State).i.toNat + (15 : Nibble).val ≤ 0xFFF ∧
    ({ ready with i := 0xFF1 } : State).i.toNat + (15 : Nibble).val > 0xFFF := by decide
theorem witness_draw : ({ ready with i := 0xFF1 } : State).i.toNat + (15 : Nibble).val ≤ 4096 ∧
    ({ ready with i := 0xFF2 } : State).i.toNat + (15 : Nibble).val > 4096 ∧ 0 < (15 : Nibble).val ∧
    0 < (1 : Nibble).val ∧ ({ ready with i := 0x1000 } : State).i.toNat + (1 : Nibble).val > 4096 := by decide
/-- The other way to complete: no sprite byte, wherever I points. -/
theorem witness_draw_zero_rows : (0 : Nibble).val = 0 ∧ ({ ready with i := 0x2000 } : State).i.toNat + (0 : Nibble).val > 4096 := by
  decide
/-- A cell inside the sprite and a cell outside it, with a collision. -/
theorem witness_draw_cells : (31 : Fin 32).val = (corner.v[1].toNat + 0) % 32 ∧ (63 : Fin 64).val = (corner.v[0].toNat + 1) % 64 ∧
    (∀ i < 2, ∀ j < 8, ¬ ((5 : Fin 32).val = (corner.v[1].toNat + i) % 32 ∧ (5 : Fin 64).val = (corner.v[0].toNat + j) % 64)) := by
  decide
theorem witness_draw_twice : ∃ t w, corner.i.toNat + (2 : Nibble).val ≤ 4096 ∧ exec (.draw 0 1 2) corner = .next t ∧
    exec (.draw 0 1 2) t = .next w ∧ t.v[0] = corner.v[0] ∧ t.v[1] = corner.v[1] ∧ t.i = corner.i ∧ t.mem = corner.mem :=
  ⟨_, _, by decide, rfl, rfl, rfl, rfl, rfl, rfl⟩
/-- Each clause of the owners' statement: a written register, a skip, a raise, a written I. -/
theorem witness_owners : (∃ t, exec (.add 0 1) (withRegs 250 10) = .next t ∧ t.v[0] ≠ (250 : Byte) ∧ t.v[15] ≠ (0 : Byte)) ∧
    (∃ t, exec (.skipIfEqual 0 0) ready = .next t ∧ t.pc ≠ ready.pc + 2) ∧
    (∃ t, exec .ret ready = .next t ∧ t.fault ≠ ready.fault ∧ t.pc ≠ ready.pc + 2) ∧
    (∃ t, exec (.setAddress 0x300) ready = .next t ∧ t.i ≠ ready.i) :=
  ⟨⟨_, rfl, by decide, by decide⟩, ⟨_, rfl, by decide⟩, ⟨_, rfl, by decide, by decide⟩, ⟨_, rfl, by decide⟩⟩
/-- A register that Load does not read, though it writes it. -/
theorem witness_unread : (0 : Nibble) ≠ 1 ∧ ∃ t, exec (.load 0 1) ready = .next t := ⟨by decide, _, rfl⟩
theorem witness_keys : ∃ t, (∀ x, Instr.jump 0x204 ≠ .skipIfNotPressed x) ∧ exec (.jump 0x204) ready = .next t :=
  ⟨_, ⟨fun _ h => Instr.noConfusion h, rfl⟩⟩
theorem witness_dead_slots : (∀ k : Fin 16, k.val < ({ State.reset with sp := 1 } : State).sp.val →
      (State.reset.stack.set 5 7)[k.val] = State.reset.stack[k.val]) ∧
    ∃ t, exec .ret { State.reset with sp := 1 } = .next t := ⟨by decide, _, rfl⟩
theorem witness_load : (List.replicate 3583 (0 : Byte)).length ≤ 3583 ∧ (List.replicate 3584 (0 : Byte)).length > 3583 := by
  rw [List.length_replicate, List.length_replicate]
  decide
/-- A state that meets the invariant and steps. -/
theorem witness_invariant : ready.Inv ∧ ∃ t, step ready = .next t :=
  ⟨⟨by decide, by decide, rfl, by decide, by decide⟩, _, step_of_fetches witness_fetches.1 rfl⟩
theorem witness_reachable : Reachable State.reset := .start (source := some []) rfl
/-- A run of one step without a fault. -/
theorem witness_run : ∃ t, Sys2Proof.core.run 1 ready = .next t ∧ t.fault = none := by
  have h : Sys2Proof.core.step ready = .next (ready.takeKeys.setReg 0xA 0x3C).advance.complete :=
    step_of_fetches witness_fetches.1 rfl
  exact ⟨(ready.takeKeys.setReg 0xA 0x3C).advance.complete, by simp only [Host.Core.run, h], rfl⟩

end Sys2Proof.Tests
end

section
/-! The instructions as a transition relation: what `exec` answers, said once for both directions. The proofs about all
instructions split along its constructors. -/

namespace Sys2Proof.Machine

/-- The fault that executing `i` in `s` raises, if any: the checks of R253 below the fetch. -/
def faultOf (s : State) : Instr → Option CoreFault
  | .ret => if s.sp.val = 0 then some .stackUnderflow else none
  | .call _ => if s.sp.val = 16 then some .stackOverflow else none
  | .draw _ _ n =>
    if 0 < n.val ∧ 4096 < s.i.toNat + n.val then some (.memoryOutOfBounds (BitVec.ofNat 16 (s.i.toNat + n.val - 1)))
    else none
  | .setBCD _ =>
    if 4096 < s.i.toNat + 3 then some (.memoryOutOfBounds (BitVec.ofNat 16 (s.i.toNat + 2))) else none
  | .loadRegisters x =>
    if 4096 < s.i.toNat + (x.val + 1) then some (.memoryOutOfBounds (BitVec.ofNat 16 (s.i.toNat + x.val))) else none
  | .notImplemented op => some (.instructionNotImplemented op)
  | _ => none

/-- `Transition s i t`: executing `i` takes `s` to `t`. The first constructor is the raise; each of the others is one
instruction that completes, under the condition that keeps it from raising. `Transition.of_exec` and
`Transition.exec_eq` tie it to `exec`. -/
inductive Transition (s : State) : Instr → State → Prop
  | raise {i : Instr} {f : CoreFault} (h : faultOf s i = some f) : Transition s i (s.raise f)
  | ret (h : s.sp.val ≠ 0) :
    Transition s .ret (({ s with sp := ⟨s.sp.val - 1, by omega⟩ } : State).setPc s.stack[s.sp.val - 1])
  | jump (nnn : Addr12) : Transition s (.jump nnn) (s.setPc (zext16 nnn))
  | call (nnn : Addr12) (h : s.sp.val < 16) : Transition s (.call nnn)
    (({ s with stack := s.stack.set s.sp.val s.pc, sp := ⟨s.sp.val + 1, by omega⟩ } : State).setPc (zext16 nnn))
  | skipIfEqual (x : Nibble) (kk : Byte) : Transition s (.skipIfEqual x kk) (s.skipIf (s.reg x == kk))
  | skipIfNotEqual (x : Nibble) (kk : Byte) : Transition s (.skipIfNotEqual x kk) (s.skipIf (s.reg x != kk))
  | loadConstant (x : Nibble) (kk : Byte) : Transition s (.loadConstant x kk) (s.setReg x kk).advance
  | addConstant (x : Nibble) (kk : Byte) : Transition s (.addConstant x kk) (s.setReg x (s.reg x + kk)).advance
  | load (x y : Nibble) : Transition s (.load x y) (s.setReg x (s.reg y)).advance
  | and (x y : Nibble) : Transition s (.and x y) (s.setReg x (s.reg x &&& s.reg y)).advance
  | add (x y : Nibble) : Transition s (.add x y)
    ((s.setReg x (s.reg x + s.reg y)).setFlag (carryFlag (s.reg x) (s.reg y))).advance
  | sub (x y : Nibble) : Transition s (.sub x y)
    ((s.setReg x (s.reg x - s.reg y)).setFlag (greaterFlag (s.reg x) (s.reg y))).advance
  | setAddress (nnn : Addr12) : Transition s (.setAddress nnn) (s.setIndex (zext16 nnn)).advance
  | randomAnd (x : Nibble) (kk : Byte) : Transition s (.randomAnd x kk) (s.setReg x (s.rnd &&& kk)).advance
  | draw (x y n : Nibble) (h : n.val = 0 ∨ s.i.toNat + n.val ≤ 4096) : Transition s (.draw x y n)
    (({ s with fb := (drawRows s.mem s.i.toNat (s.reg x) (s.reg y) n.val (s.fb, false)).1 } : State).setFlag
      (collisionFlag (drawRows s.mem s.i.toNat (s.reg x) (s.reg y) n.val (s.fb, false)).2)).advance
  | skipIfNotPressed (x : Nibble) : Transition s (.skipIfNotPressed x) (s.skipIf (! s.keys[x.val]))
  | loadDelay (x : Nibble) : Transition s (.loadDelay x) (s.setReg x s.dt).advance
  | setDelay (x : Nibble) : Transition s (.setDelay x) (s.setDelayTimer (s.reg x)).advance
  | setFontLocation (x : Nibble) : Transition s (.setFontLocation x) (s.setIndex (fontAddr (s.reg x))).advance
  | setBCD (x : Nibble) (h : s.i.toNat + 3 ≤ 4096) : Transition s (.setBCD x)
    ((((s.storeByte s.i.toNat (bcdHundreds (s.reg x))).storeByte (s.i.toNat + 1)
      (bcdTens (s.reg x))).storeByte (s.i.toNat + 2) (bcdOnes (s.reg x))).advance)
  | loadRegisters (x : Nibble) (h : s.i.toNat + (x.val + 1) ≤ 4096) : Transition s (.loadRegisters x)
    ({ s with v := loadBlock s.mem s.i.toNat (x.val + 1) s.v } : State).advance

variable {i : Instr} {s t : State}

/-- Inversion: what `exec` answers is a transition. -/
theorem Transition.of_exec (h : exec i s = .next t) : Transition s i t := by
  cases i with
  | ret =>
    rcases exec_ret_cases s with ⟨hsp, e⟩ | ⟨hsp, e⟩ <;> cases e.symm.trans h
    exacts [.ret hsp, .raise (if_pos hsp)]
  | call nnn =>
    rcases exec_call_cases nnn s with ⟨hsp, e⟩ | ⟨hsp, e⟩ <;> cases e.symm.trans h
    exacts [.call nnn hsp, .raise (if_pos hsp)]
  | draw x y n =>
    rcases exec_draw_cases x y n s with ⟨hb, e⟩ | ⟨hb, e⟩ <;> cases e.symm.trans h
    exacts [.draw x y n hb, .raise (if_pos hb)]
  | setBCD x =>
    rcases exec_setBCD_cases x s with ⟨hb, e⟩ | ⟨hb, e⟩ <;> cases e.symm.trans h
    exacts [.setBCD x hb, .raise (if_pos hb)]
  | loadRegisters x =>
    rcases exec_loadRegisters_cases x s with ⟨hb, e⟩ | ⟨hb, e⟩ <;> cases e.symm.trans h
    exacts [.loadRegisters x hb, .raise (if_pos hb)]
  | notImplemented op => cases h; exact .raise rfl
  | _ => cases h; constructor

/-- An instruction whose check fails raises that fault. -/
theorem exec_of_faultOf {f : CoreFault} (h : faultOf s i = some f) : exec i s = .next (s.raise f) := by
  obtain ⟨t, ht⟩ := exec_next i s
  cases Transition.of_exec ht with
  | raise hf => cases hf.symm.trans h; exact ht
  | ret hsp => cases (if_neg hsp).symm.trans h
  | call nnn hsp => cases (if_neg hsp.ne).symm.trans h
  | draw x y n hb => cases (if_neg (by omega)).symm.trans h
  | setBCD x hb => cases (if_neg hb.not_gt).symm.trans h
  | loadRegisters x hb => cases (if_neg hb.not_gt).symm.trans h
  | _ => cases h

/-- Every transition is what `exec` answers. -/
theorem Transition.exec_eq (h : Transition s i t) : exec i s = .next t := by
  cases h with
  | raise hf => exact exec_of_faultOf hf
  | ret hsp => exact (exec_ret_cases s).elim (fun ⟨_, e⟩ => e) fun ⟨h0, _⟩ => absurd h0 hsp
  | call nnn hsp => exact (exec_call_cases nnn s).elim (fun ⟨_, e⟩ => e) fun ⟨h16, _⟩ => absurd h16 hsp.ne
  | draw x y n hb => exact (exec_draw_cases x y n s).elim (·.2) fun ⟨hb', _⟩ => by omega
  | setBCD x hb => exact (exec_setBCD_cases x s).elim (·.2) fun ⟨hb', _⟩ => by omega
  | loadRegisters x hb => exact (exec_loadRegisters_cases x s).elim (·.2) fun ⟨hb', _⟩ => by omega
  | _ => rfl

end Sys2Proof.Machine
end

section
/-! The invariant of R38: what each state operation asks for to keep it, that every step keeps it, and that a session
therefore never leaves it. -/

namespace Sys2Proof.Machine

/-- R82: a zero-extended address field is at most 0xFFF. -/
theorem zext16_toNat_le (nnn : Addr12) : (zext16 nnn).toNat ≤ 0xFFF := by
  have := nnn.isLt
  simp only [zext16, BitVec.toNat_setWidth]
  omega

/-- R193: the font address of any byte is inside memory. -/
theorem fontAddr_toNat_le (a : Byte) : (fontAddr a).toNat ≤ 0xFFF := by
  have := a.isLt
  have h16 : (a.setWidth 16).toNat = a.toNat := BitVec.toNat_setWidth_of_le (by decide)
  rw [fontAddr, BitVec.toNat_mul, h16, show (5 : Word).toNat = 5 from rfl]
  exact (Nat.mod_le _ _).trans (by omega)

namespace State.Inv

variable {s t : State}

/-- The invariant speaks of I, PC, ST, the stack and memory alone. -/
theorem congr (h : s.Inv) (hi : t.i = s.i) (hpc : t.pc = s.pc) (hst : t.st = s.st) (hstack : t.stack = s.stack)
    (hmem : t.mem = s.mem) : t.Inv where
  index := hi ▸ h.index
  counter := hpc ▸ h.counter
  sound := hst ▸ h.sound
  returns := hstack ▸ h.returns
  memory := hmem ▸ h.memory

theorem raise (h : s.Inv) (f : CoreFault) : (s.raise f).Inv := h.congr rfl rfl rfl rfl rfl
theorem setReg (h : s.Inv) (x : Nibble) (b : Byte) : (s.setReg x b).Inv := h.congr rfl rfl rfl rfl rfl
theorem setFlag (h : s.Inv) (b : Byte) : (s.setFlag b).Inv := h.congr rfl rfl rfl rfl rfl
theorem setDelayTimer (h : s.Inv) (b : Byte) : (s.setDelayTimer b).Inv := h.congr rfl rfl rfl rfl rfl
theorem writeKeys (h : s.Inv) (k : Keys) : (s.writeKeys k).Inv := h.congr rfl rfl rfl rfl rfl
theorem queueKeys (h : s.Inv) (ks : List Keys) : (s.queueKeys ks).Inv := h.congr rfl rfl rfl rfl rfl

theorem takeKeys (h : s.Inv) : s.takeKeys.Inv :=
  h.congr s.takeKeys_i s.takeKeys_pc s.takeKeys_st s.takeKeys_stack s.takeKeys_mem

theorem setPc (h : s.Inv) {w : Word} (hw : w.toNat ≤ 0x1002) : (s.setPc w).Inv := { h with counter := hw }

theorem setIndex (h : s.Inv) {w : Word} (hw : w.toNat ≤ 0xFFF) : (s.setIndex w).Inv := { h with index := hw }

theorem storeByte (h : s.Inv) {a : Nat} (ha : a < 4096) (b : Byte) : (s.storeByte a b).Inv :=
  { h with memory := Memory.write_wf h.memory ha b }

/-- R26: where an instruction can be fetched, the default advance stays in bounds. -/
theorem advance (h : s.Inv) (hpc : s.pc.toNat ≤ 0xFFE) : s.advance.Inv :=
  h.setPc (by bv_omega)

/-- R26: and so does a skip. -/
theorem skipIf (h : s.Inv) (hpc : s.pc.toNat ≤ 0xFFE) (c : Bool) : (s.skipIf c).Inv :=
  h.setPc (by split <;> bv_omega)

/-- Pushing an address an instruction can be fetched from leaves only such addresses on the stack. -/
theorem push (h : s.Inv) {w : Word} (hw : w.toNat ≤ 0xFFE) (hsp : s.sp.val < 16) (sp' : Fin 17) :
    ({ s with stack := s.stack.set s.sp.val w, sp := sp' } : State).Inv :=
  { h with
    returns := fun k => by
      rw [Vector.getElem_set]
      split
      · exact hw
      · exact h.returns k }

/-- R31: a stopped sound timer stays at 0. -/
theorem complete (h : s.Inv) : s.complete.Inv := by
  cases hf : s.fault with
  | some f => rwa [State.complete_of_fault (by simp [hf])]
  | none =>
    rw [State.complete_of_running hf]
    exact { h with sound := (congrArg countDown h.sound).trans (by decide) }

/-- Every instruction fetched inside memory keeps the invariant. -/
theorem transition {i : Instr} (h : s.Inv) (hpc : s.pc.toNat ≤ 0xFFE) (ht : Transition s i t) : t.Inv := by
  cases ht with
  | raise hf => exact h.raise _
  | ret hsp =>
    have hslot := h.returns ⟨s.sp.val - 1, by omega⟩
    exact { h with counter := le_trans hslot (by decide) }
  | jump nnn => exact h.setPc (le_trans (zext16_toNat_le nnn) (by decide))
  | call nnn hsp => exact (h.push hpc hsp _).setPc (le_trans (zext16_toNat_le nnn) (by decide))
  | skipIfEqual | skipIfNotEqual | skipIfNotPressed => exact h.skipIf hpc _
  | setAddress nnn => exact (h.setIndex (zext16_toNat_le nnn)).advance hpc
  | setFontLocation x => exact (h.setIndex (fontAddr_toNat_le _)).advance hpc
  | setBCD x hb =>
    exact (((h.storeByte (by omega) _).storeByte (by omega) _).storeByte (by omega) _).advance hpc
  | add | sub => exact ((h.setReg _ _).setFlag _).advance hpc
  | setDelay => exact (h.setDelayTimer _).advance hpc
  | draw => exact State.Inv.advance (h.congr rfl rfl rfl rfl rfl) hpc
  | loadRegisters => exact State.Inv.advance (h.congr rfl rfl rfl rfl rfl) hpc
  | loadConstant | addConstant | load | and | randomAnd | loadDelay => exact (h.setReg _ _).advance hpc

/-- R38 is inductive: every step keeps the invariant. -/
theorem step (h : s.Inv) (ht : step s = .next t) : t.Inv := by
  rcases step_cases s with ⟨_, _, e⟩ | ⟨_, _, e⟩ | ⟨i, u, hfetch, hu, e⟩ <;> cases e.symm.trans ht
  · exact h.takeKeys.raise _
  · obtain ⟨_, hpc, _⟩ := hfetch
    exact (h.takeKeys.transition (by simpa using hpc) (.of_exec hu)).complete

/-- R37: the invariant holds at reset. -/
theorem reset : State.reset.Inv where
  index := by decide
  counter := by decide
  sound := rfl
  returns := by decide
  memory := Memory.wf_nil

end State.Inv

/-- R291: what a load that succeeds leaves. -/
theorem State.loadProgram_eq_loaded {s t : State} {source : Option (List Byte)} (h : s.loadProgram source = .loaded t) :
    ∃ bytes : List Byte, bytes.length ≤ 0xDFF ∧ t = { s with mem := Memory.writeBlock s.mem 0x200 bytes } := by
  cases source with
  | none => cases h
  | some bytes =>
    by_cases hlen : bytes.length ≤ 0xDFF
    · rw [State.loadProgram, if_pos hlen] at h
      cases h
      exact ⟨bytes, hlen, rfl⟩
    · rw [State.loadProgram, if_neg hlen] at h
      cases h

/-- A program load keeps the invariant. -/
theorem State.Inv.loadProgram {s t : State} {source : Option (List Byte)} (h : s.Inv)
    (ht : s.loadProgram source = .loaded t) : t.Inv := by
  obtain ⟨bytes, hlen, rfl⟩ := State.loadProgram_eq_loaded ht
  exact { h with memory := Memory.writeBlock_wf h.memory (by omega) }

/-- Every reachable state meets the invariant: it holds after the load, and key writes and steps keep it. -/
theorem Reachable.inv {s : State} (h : Reachable s) : s.Inv := by
  induction h with
  | start hload => exact State.Inv.reset.loadProgram hload
  | keys _ k ih => exact ih.writeKeys k
  | queued _ ks ih => exact ih.queueKeys ks
  | step _ ht ih => exact ih.step ht

/-- Settles O48: the invariant is inductive. -/
theorem everyStepKeepsTheInvariant : Obligations.EveryStepKeepsTheInvariant :=
  fun _ _ h ht => h.step ht

/-- Settles O47. -/
theorem invariantHoldsAtReset : Obligations.InvariantHoldsAtReset := State.Inv.reset

/-- Settles O49, from the invariant of the reachable states; the bound on SP is its type's. -/
theorem reachableStatesMeetTheirBounds : Obligations.ReachableStatesMeetTheirBounds := by
  intro s h
  have hinv := h.inv
  exact ⟨Nat.le_of_lt_succ s.sp.isLt, hinv.index, hinv.counter, hinv.sound⟩

end Sys2Proof.Machine
end

section
/-! Which instruction may write which piece of state (R22, R27, R29 to R31, R35, R54, R115 to R117, R250). -/

namespace Sys2Proof.Machine

/-- A register that a write changed is the written one. -/
theorem eq_of_getElem_set_ne {v : Vector Byte 16} {x r : Nibble} {b : Byte}
    (h : (v.set x.val b)[r.val] ≠ v[r.val]) : r = x := by
  by_contra hrx
  exact h (Vector.getElem_set_ne _ _ fun e => hrx (Fin.ext e.symm))

/-- A register that two writes changed is one of the two. -/
theorem eq_or_eq_of_getElem_set_set_ne {v : Vector Byte 16} {x y r : Nibble} {b c : Byte}
    (h : ((v.set x.val b).set y.val c)[r.val] ≠ v[r.val]) : r = x ∨ r = y := by
  by_cases hy : ((v.set x.val b).set y.val c)[r.val] = (v.set x.val b)[r.val]
  · exact .inl (eq_of_getElem_set_ne (hy ▸ h))
  · exact .inr (eq_of_getElem_set_ne hy)

/-- R199: a register that a block load changed is one of the loaded. -/
theorem lt_of_getElem_loadBlock_ne {m : Memory} {base n : Nat} {v : Vector Byte 16} {r : Nibble}
    (h : (loadBlock m base n v)[r.val] ≠ v[r.val]) : r.val < n := by
  by_contra hrn
  exact h (by rw [loadBlock_get, if_neg hrn])

/-- Settles O40, by inversion of `exec`. In each case the clauses of the elements that the transition leaves alone are
vacuous; what is argued is the raise and the general registers that were written. -/
theorem stateIsWrittenOnlyByItsOwners : Obligations.StateIsWrittenOnlyByItsOwners := by
  intro i s t h
  cases Transition.of_exec h with
  | raise hf =>
    refine ⟨fun r hr => absurd rfl hr, fun _ => ?pc, fun _ => ?fault, by simp⟩
    case pc =>
      cases i with
      | ret | call => trivial
      | draw | setBCD | loadRegisters | notImplemented => exact ⟨rfl, Option.some_ne_none _⟩
      | _ => cases hf
    case fault =>
      cases i with
      | ret | call =>
        obtain ⟨_, hf⟩ := Option.ite_none_right_eq_some.1 hf
        exact hf.symm
      | draw | setBCD | loadRegisters =>
        obtain ⟨_, hf⟩ := Option.ite_none_right_eq_some.1 hf
        exact ⟨_, hf.symm⟩
      | notImplemented => exact hf.symm
      | _ => cases hf
  | loadConstant | addConstant | load | and | randomAnd | loadDelay =>
    exact ⟨fun _ hr => eq_of_getElem_set_ne hr, by simp⟩
  | add | sub => exact ⟨fun _ hr => eq_or_eq_of_getElem_set_set_ne (y := 15) hr, by simp⟩
  | draw => exact ⟨fun _ hr => eq_of_getElem_set_ne (x := 15) hr, by simp⟩
  | loadRegisters => exact ⟨fun _ hr => Nat.lt_succ_iff.1 (lt_of_getElem_loadBlock_ne hr), by simp⟩
  | _ => simp

end Sys2Proof.Machine
end

section
/-! Noninterference: what an instruction does not read does not reach the rest of the next state, stack slots at or above
SP (R29, R30, D13) and general registers that R22 does not name. -/

namespace Sys2Proof.Machine

/-- The checks of R253 read SP and I alone. -/
theorem faultOf_congr {s s' : State} (hsp : s'.sp = s.sp) (hi : s'.i = s.i) (i : Instr) : faultOf s' i = faultOf s i := by
  cases i <;> simp only [faultOf, hsp, hi]

/-- One value written at the same place in two vectors: each element is the same in both if it was before, or is the
written one. -/
theorem getElem_set_congr {α : Type} {v v' : Vector α 16} {p : Nat} (hp : p < 16) (b : α) (k : Fin 16)
    (h : k.val ≠ p → v'[k.val] = v[k.val]) : (v'.set p b)[k.val] = (v.set p b)[k.val] := by
  by_cases hk : k.val = p
  · simp [hk]
  · rw [Vector.getElem_set_ne _ _ (Ne.symm hk), Vector.getElem_set_ne _ _ (Ne.symm hk), h hk]

/-- R199: one block loaded into two register files leaves an element the same in both if it was before. -/
theorem getElem_loadBlock_congr {v v' : Vector Byte 16} (m : Memory) (base n : Nat) (q : Nibble)
    (h : v'[q.val] = v[q.val]) : (loadBlock m base n v')[q.val] = (loadBlock m base n v)[q.val] := by
  rw [loadBlock_get, loadBlock_get, h]

/-- Settles O43: Call makes one more slot live and writes it in both states, Return reads the last live slot and drops it,
and no other instruction touches the stack. -/
theorem slotsAboveTheStackPointerAreDead : Obligations.SlotsAboveTheStackPointerAreDead := by
  intro i s t stack' hlow h
  cases Transition.of_exec h with
  | raise hf => exact ⟨_, exec_of_faultOf ((faultOf_congr rfl rfl i).trans hf), rfl, hlow⟩
  | ret hsp =>
    have hslot : stack'[s.sp.val - 1] = s.stack[s.sp.val - 1] := hlow ⟨s.sp.val - 1, by omega⟩ (Nat.sub_one_lt hsp)
    refine ⟨_, Transition.exec_eq (.ret hsp), ?_, fun k hk => hlow k (lt_of_lt_of_le hk (Nat.sub_le _ _))⟩
    simp only [hslot]
    rfl
  | call nnn hsp =>
    exact ⟨_, Transition.exec_eq (.call (s := { s with stack := stack' }) nnn hsp), rfl, fun k hk =>
      getElem_set_congr hsp s.pc k fun hne => hlow k (lt_of_le_of_ne (Nat.le_of_lt_succ hk) hne)⟩
  | draw x y n hb => exact ⟨_, Transition.exec_eq (.draw x y n hb), rfl, hlow⟩
  | setBCD x hb => exact ⟨_, Transition.exec_eq (.setBCD x hb), rfl, hlow⟩
  | loadRegisters x hb => exact ⟨_, Transition.exec_eq (.loadRegisters x hb), rfl, hlow⟩
  | _ => exact ⟨_, rfl, rfl, hlow⟩

/-- Settles O51: the registers an instruction reads hold the same bytes in both states (`hreg`), so every instruction writes
the same bytes (`hset`) into two register files that agree but for V[r] (`hv`). -/
theorem instructionsReadOnlyTheirNamedRegisters : Obligations.InstructionsReadOnlyTheirNamedRegisters := by
  intro i s t r b hr h
  change ∃ t', exec i (s.setReg r b) = .next t' ∧ _
  have hv : ∀ q : Nibble, q ≠ r → (s.setReg r b).v[q.val] = s.v[q.val] := fun q hq => State.reg_setReg_other s hq b
  have hreg : ∀ {x : Nibble}, r ≠ x → (s.setReg r b).reg x = s.reg x := fun hx => hv _ hx.symm
  have hset : ∀ (x : Nibble) (c : Byte) (q : Nibble), q ≠ r →
      ((s.setReg r b).v.set x.val c)[q.val] = (s.v.set x.val c)[q.val] :=
    fun x c q hq => getElem_set_congr x.isLt c q fun _ => hv q hq
  cases Transition.of_exec h with
  | raise hf => exact ⟨_, exec_of_faultOf ((faultOf_congr rfl rfl i).trans hf), rfl, hv⟩
  | ret hsp => exact ⟨_, Transition.exec_eq (.ret (s := s.setReg r b) hsp), rfl, hv⟩
  | call nnn hsp => exact ⟨_, Transition.exec_eq (.call (s := s.setReg r b) nnn hsp), rfl, hv⟩
  | jump | setAddress | skipIfNotPressed => exact ⟨_, rfl, rfl, hv⟩
  | skipIfEqual x kk =>
    rw [exec_skipIfEqual, hreg hr]
    exact ⟨_, rfl, rfl, hv⟩
  | skipIfNotEqual x kk =>
    rw [exec_skipIfNotEqual, hreg hr]
    exact ⟨_, rfl, rfl, hv⟩
  | setDelay x =>
    rw [exec_setDelay, hreg hr]
    exact ⟨_, rfl, rfl, hv⟩
  | setFontLocation x =>
    rw [exec_setFontLocation, hreg hr]
    exact ⟨_, rfl, rfl, hv⟩
  | setBCD x hb =>
    rw [Transition.exec_eq (.setBCD (s := s.setReg r b) x hb), hreg hr]
    exact ⟨_, rfl, rfl, hv⟩
  | loadConstant x | randomAnd x | loadDelay x => exact ⟨_, rfl, rfl, hset x _⟩
  | addConstant x kk =>
    rw [exec_addConstant, hreg hr]
    exact ⟨_, rfl, rfl, hset x _⟩
  | load x y =>
    rw [exec_load, hreg hr]
    exact ⟨_, rfl, rfl, hset x _⟩
  | and x y =>
    obtain ⟨hx, hy⟩ := hr
    rw [exec_and, hreg hx, hreg hy]
    exact ⟨_, rfl, rfl, hset x _⟩
  | add x y =>
    obtain ⟨hx, hy⟩ := hr
    rw [exec_add, hreg hx, hreg hy]
    exact ⟨_, rfl, rfl, fun q hq => getElem_set_congr vf.isLt _ q fun _ => hset x _ q hq⟩
  | sub x y =>
    obtain ⟨hx, hy⟩ := hr
    rw [exec_sub, hreg hx, hreg hy]
    exact ⟨_, rfl, rfl, fun q hq => getElem_set_congr vf.isLt _ q fun _ => hset x _ q hq⟩
  | draw x y n hb =>
    obtain ⟨hx, hy⟩ := hr
    rw [Transition.exec_eq (.draw (s := s.setReg r b) x y n hb), hreg hx, hreg hy]
    exact ⟨_, rfl, rfl, hset vf _⟩
  | loadRegisters x hb =>
    exact ⟨_, Transition.exec_eq (.loadRegisters (s := s.setReg r b) x hb), rfl,
      fun q hq => getElem_loadBlock_congr s.mem s.i.toNat (x.val + 1) q (hv q hq)⟩

end Sys2Proof.Machine
end

section
/-! The reset state (R37, R290). -/

namespace Sys2Proof.Machine

/-- R59: an address of the font that nothing has written reads as its font byte. -/
theorem Memory.unlisted_font (a : Fin 80) : Memory.unlisted a.val = Config.font a := dif_pos a.isLt

/-- R58: any other address that nothing has written reads as 0. -/
theorem Memory.unlisted_of_ge {a : Nat} (h : 0x50 ≤ a) : Memory.unlisted a = 0 := dif_neg (by omega)

/-- Settles O44: reset memory lists no cell, so each address reads as unlisted; the other fields are literals. -/
theorem resetLeavesTheStatedValues : Obligations.ResetLeavesTheStatedValues := by
  have zeroRegs : ∀ r : Nibble, State.reset.v[r.val] = 0 := fun _ => Vector.getElem_replicate _
  have zeroStack : ∀ k : Fin 16, State.reset.stack[k.val] = 0 := fun _ => Vector.getElem_replicate _
  have released : ∀ k : Fin 16, State.reset.keys[k.val] = false := fun _ => Vector.getElem_replicate _
  have blank : ∀ (r : Fin 32) (c : Fin 64), State.reset.fb.cell r c = false := fun _ _ => by
    simp [Framebuffer.cell, State.reset]
  exact ⟨zeroRegs, rfl, rfl, rfl, zeroStack, rfl, rfl, Memory.unlisted_font, fun _ h _ => Memory.unlisted_of_ge h, blank,
    released, rfl⟩

end Sys2Proof.Machine
end

section
/-! The fetch (spec/20_memory.md R50). -/

namespace Sys2Proof.Machine

/-- R50: bits 15:8 of a word are its first byte. -/
theorem wordOfBytes_toNat_div (hi lo : Byte) : (wordOfBytes hi lo).toNat / 0x100 = hi.toNat := by
  have hlo := lo.isLt
  rw [wordOfBytes_toNat]
  omega

/-- R50: bits 7:0 of a word are its second byte. -/
theorem wordOfBytes_toNat_mod (hi lo : Byte) : (wordOfBytes hi lo).toNat % 0x100 = lo.toNat := by
  rw [wordOfBytes_toNat, Nat.mul_add_mod_of_lt lo.isLt]

/-- Settles O6: inside memory the fetch answers the word of the bytes at PC and PC + 1, whose halves are those bytes. -/
theorem fetchIsBigEndian : Obligations.FetchIsBigEndian := fun _ hpc =>
  ⟨_, State.fetch_inside (Nat.le_of_succ_le_succ hpc), wordOfBytes_toNat_div _ _, wordOfBytes_toNat_mod _ _⟩

end Sys2Proof.Machine
end

section
/-! The encoding (spec/30_encoding.md): the decoder and the encoder undo each other (R83, R84), the rows of the opcode map
select what a word decodes to (R85), and the catch-all takes the unassigned space (R86). -/

namespace Sys2Proof

/-! ## A word is put together again from its fields (R80, R81) -/

section
variable {op : Word} {f : Nat} (hf : familyOf op = f)
include hf

theorem encodeNNN_of_fields : encodeNNN f (nnnOf op) = op := by
  subst hf
  apply BitVec.eq_of_toNat_eq
  rw [encodeNNN_toNat (f := familyOf op) (field_lt op 12 4), nnnOf_toNat]
  simp only [familyOf, field]
  omega

theorem encodeXKK_of_fields : encodeXKK f (xOf op) (kkOf op) = op := by
  subst hf
  apply BitVec.eq_of_toNat_eq
  rw [encodeXKK_toNat (f := familyOf op) (field_lt op 12 4), xOf_val, kkOf_toNat, field_low_byte, ← Nat.add_assoc]
  exact (toNat_of_fields op).symm

theorem encodeXYN_of_fields {k : Nat} (hk : field op 0 4 = k) : encodeXYN f (xOf op) (yOf op) k = op := by
  subst hf hk
  apply BitVec.eq_of_toNat_eq
  rw [encodeXYN_toNat (f := familyOf op) (field_lt op 12 4) _ _ (field_lt op 0 4), xOf_val, yOf_val]
  exact (toNat_of_fields op).symm

theorem encodeXFF_of_fields {k : Nat} (hk : field op 0 8 = k) : encodeXFF f (xOf op) k = op := by
  subst hf hk
  apply BitVec.eq_of_toNat_eq
  rw [encodeXFF_toNat (f := familyOf op) (field_lt op 12 4) _ (field_lt op 0 8), xOf_val, field_low_byte, ← Nat.add_assoc]
  exact (toNat_of_fields op).symm

end

/-! ## What a word decodes to stands for it (R83, R84) -/

/-- The instruction is well formed and `op` is its word. -/
def Instr.StandsFor (i : Instr) (op : Word) : Prop := i.wellFormed = true ∧ encode i = op

/-- R86 by fields: the families without a row, then the rest of the families 0, 8, E and F. -/
theorem notImplemented_standsFor_iff (op : Word) : (Instr.notImplemented op).StandsFor op ↔
    familyOf op ∈ [0x5, 0x9, 0xB] ∨
    (familyOf op = 0x0 ∧ op ≠ 0x00EE#16) ∨
    (familyOf op = 0x8 ∧ field op 0 4 ∉ [0x0, 0x2, 0x4, 0x5]) ∨
    (familyOf op = 0xE ∧ field op 0 8 ≠ 0xA1) ∨
    (familyOf op = 0xF ∧ field op 0 8 ∉ [0x07, 0x15, 0x29, 0x33, 0x65]) := by
  have := op.isLt
  rw [Instr.StandsFor, Instr.wellFormed, unassignedWord_iff, ← BitVec.toNat_ne_iff_ne]
  simp only [encode, and_true, familyOf, field, List.mem_cons, List.not_mem_nil, or_false, not_or, BitVec.toNat_ofNat]
  omega

theorem decodeFamily8_standsFor {op : Word} (hf : familyOf op = 0x8) : (decodeFamily8 op).StandsFor op := by
  unfold decodeFamily8
  split
  case h_5 h0 h2 h4 h5 => exact (notImplemented_standsFor_iff op).2 (by simpa [hf] using ⟨h0, h2, h4, h5⟩)
  all_goals exact ⟨rfl, encodeXYN_of_fields hf ‹_›⟩

theorem decodeFamilyF_standsFor {op : Word} (hf : familyOf op = 0xF) : (decodeFamilyF op).StandsFor op := by
  unfold decodeFamilyF
  split
  case h_6 h07 h15 h29 h33 h65 =>
    exact (notImplemented_standsFor_iff op).2 (by simpa [hf] using ⟨h07, h15, h29, h33, h65⟩)
  all_goals exact ⟨rfl, encodeXFF_of_fields hf ‹_›⟩

/-- By the families, in the order of the decoder's match; one layout's families are one case. -/
theorem decodeWord_standsFor (op : Word) : (decodeWord op).StandsFor op := by
  unfold decodeWord
  split
  case h_1 hf =>
    split
    next hop => exact ⟨rfl, hop.symm⟩
    next hop => exact (notImplemented_standsFor_iff op).2 (by simp [hf, hop])
  case h_2 hf | h_3 hf | h_9 hf => exact ⟨rfl, encodeNNN_of_fields hf⟩
  case h_4 hf | h_5 hf | h_6 hf | h_7 hf | h_10 hf => exact ⟨rfl, encodeXKK_of_fields hf⟩
  case h_8 hf => exact decodeFamily8_standsFor hf
  case h_11 hf => exact ⟨rfl, encodeXYN_of_fields hf rfl⟩
  case h_12 hf =>
    split
    next hkk => exact ⟨rfl, encodeXFF_of_fields hf hkk⟩
    next hkk => exact (notImplemented_standsFor_iff op).2 (by simp [hf, hkk])
  case h_13 hf => exact decodeFamilyF_standsFor hf
  case h_14 =>
    have hlt : familyOf op < 2 ^ 4 := field_lt op 12 4
    refine (notImplemented_standsFor_iff op).2 (.inl ?_)
    simp only [imp_false, List.mem_cons, List.not_mem_nil, or_false] at *
    omega

/-- Settles O3. -/
theorem encodeOfDecodeIsTheWord : Obligations.EncodeOfDecodeIsTheWord := decodeWord_standsFor

/-! ## The rows of the opcode map (R85) -/

open Laws.EncodedRow in
/-- The family EncodedRow as one theorem. -/
theorem encodedRow_statement : ∀ i : Instr, Statement i
  | .ret => ret
  | .jump nnn => jump nnn
  | .call nnn => call nnn
  | .skipIfEqual x kk => skipIfEqual x kk
  | .skipIfNotEqual x kk => skipIfNotEqual x kk
  | .loadConstant x kk => loadConstant x kk
  | .addConstant x kk => addConstant x kk
  | .load x y => load x y
  | .and x y => Laws.EncodedRow.and x y
  | .add x y => add x y
  | .sub x y => sub x y
  | .setAddress nnn => setAddress nnn
  | .randomAnd x kk => randomAnd x kk
  | .draw x y n => draw x y n
  | .skipIfNotPressed x => skipIfNotPressed x
  | .loadDelay x => loadDelay x
  | .setDelay x => setDelay x
  | .setFontLocation x => setFontLocation x
  | .setBCD x => setBCD x
  | .loadRegisters x => loadRegisters x
  | .notImplemented op => notImplemented op

/-- The rows that select a word are those that bear the mnemonic of what stands for it. -/
theorem Instr.StandsFor.selects_iff {i : Instr} {op : Word} (h : i.StandsFor op) {row : OpcodeRow}
    (hrow : row ∈ opcodeTable) : row.selects op = true ↔ row.mnemonic = i.mnemonic := by
  obtain ⟨hwf, rfl⟩ := h
  exact encodedRow_statement i hwf row hrow

/-- A mnemonic names one row. -/
theorem eq_of_mnemonic_eq :
    ∀ row ∈ opcodeTable, ∀ row' ∈ opcodeTable, row.mnemonic = row'.mnemonic → row = row' := by
  decide

/-- No row is the catch-all's. -/
theorem mnemonic_ne_notImplemented (op : Word) :
    ∀ row ∈ opcodeTable, row.mnemonic ≠ (Instr.notImplemented op).mnemonic := by
  simp only [Instr.mnemonic]
  decide

/-- Every other variant has a row. -/
theorem exists_row_or_notImplemented (i : Instr) :
    (∃ row ∈ opcodeTable, row.mnemonic = i.mnemonic) ∨ ∃ op, i = .notImplemented op := by
  cases i with
  | notImplemented op => exact .inr ⟨op, rfl⟩
  | _ => exact .inl (by simp [opcodeTable, Instr.mnemonic])

/-- R83: the catch-all takes every word that no row selects. What such a word decodes to has no row, so it is a
`notImplemented`, and it carries its word. -/
theorem decodeWord_of_unselected {op : Word} (h : ∀ row ∈ opcodeTable, row.selects op = false) :
    decodeWord op = .notImplemented op := by
  have hstands := decodeWord_standsFor op
  rcases exists_row_or_notImplemented (decodeWord op) with ⟨row, hrow, hm⟩ | ⟨op', hop⟩
  · exact absurd ((hstands.selects_iff hrow).2 hm) (by simp [h row hrow])
  · rw [hop] at hstands ⊢
    exact congrArg _ hstands.2

/-- Settles O4. -/
theorem eachWordDecodesToItsTableRow : Obligations.EachWordDecodesToItsTableRow := by
  intro op
  have hbears : ∀ row ∈ opcodeTable, row.selects op = true → row.mnemonic = (decodeWord op).mnemonic :=
    fun _ hrow => ((decodeWord_standsFor op).selects_iff hrow).1
  refine ⟨fun row hrow h => (hbears row hrow h).symm, fun row hrow row' hrow' h h' => ?_, decodeWord_of_unselected⟩
  exact eq_of_mnemonic_eq row hrow row' hrow' ((hbears row hrow h).trans (hbears row' hrow' h').symm)

/-- Settles O5: a catch-all that stands for its word carries an unassigned one, and no row selects an unassigned word. -/
theorem catchAllIsTheUnassignedSpace : Obligations.CatchAllIsTheUnassignedSpace := by
  intro op
  constructor
  · intro h
    obtain ⟨hwf, -⟩ := decodeWord_standsFor op
    rwa [h] at hwf
  · intro h
    have hstands : (Instr.notImplemented op).StandsFor op := ⟨h, rfl⟩
    refine decodeWord_of_unselected fun row hrow => ?_
    rw [← Bool.not_eq_true, hstands.selects_iff hrow]
    exact mnemonic_ne_notImplemented op row hrow

/-! ## The word of an instruction decodes to it (R84, R85) -/

/-- For a defined variant the decoder reads back the fields of its layout; an unassigned word is the catch-all's. -/
theorem decodeWord_encode {i : Instr} (h : i.wellFormed = true) : decodeWord (encode i) = i := by
  cases i with
  | notImplemented op => exact (catchAllIsTheUnassignedSpace op).2 h
  | ret => rfl
  | jump | call | setAddress => simp [encode, decodeWord, encodeNNN_fields]
  | skipIfEqual | skipIfNotEqual | loadConstant | addConstant | randomAnd => simp [encode, decodeWord, encodeXKK_fields]
  | load | and | add | sub => simp [encode, decodeWord, decodeFamily8, encodeXYN_fields]
  | draw => simp [encode, decodeWord, nOf, encodeXYN_fields]
  | skipIfNotPressed => simp [encode, decodeWord, encodeXFF_fields]
  | loadDelay | setDelay | setFontLocation | setBCD | loadRegisters =>
    simp [encode, decodeWord, decodeFamilyF, encodeXFF_fields]

/-- R50: decoding the bytes of a word decodes the word and leaves the bytes after it. -/
theorem decode_bytesOfWord_append (op : Word) (rest : List Byte) :
    decode (bytesOfWord op ++ rest) = .ok (decodeWord op, rest) := by
  simp only [bytesOfWord, List.cons_append, List.nil_append, decode, Machine.wordOfBytes_bytesOfWord]

/-- Settles O2. -/
theorem decodeOfEncodeIsTheInstruction : Obligations.DecodeOfEncodeIsTheInstruction := by
  intro i rest h
  rw [encodeBytes, decode_bytesOfWord_append, decodeWord_encode h]

/-- Settles O1, by evaluation of the decoder on each word. -/
theorem specimenWordsDecodeToTheirInstructions : Obligations.SpecimenWordsDecodeToTheirInstructions := by
  unfold Obligations.SpecimenWordsDecodeToTheirInstructions
  decide

end Sys2Proof
end

section
/-! The step engine (spec/40_step_engine.md R110 to R121): a step of a running CORE raises one fault and does nothing else,
or executes without a fault and then counts the timers down; a halted CORE takes none. -/

namespace Sys2Proof.Machine

variable {s t : State} {i : Instr}

/-! ## What a step can do -/

/-- R121: a halted CORE takes no step. -/
theorem step_of_fault {cause : CoreFault} (h : s.fault = some cause) : step s = .fault (.halted cause) := by
  simp only [step, h]

/-- R111: a running CORE whose fetch leaves memory raises. -/
theorem step_of_fetch_outside (hrun : s.running) (hpc : s.pc.toNat > 0xFFE) :
    step s = .next (s.takeKeys.raise (.fetchOutOfBounds s.pc)) := by
  have hfault : s.fault = none := hrun
  simp only [step, hfault, State.takeKeys_fetch, State.fetch_outside hpc]

/-- R121: only a running CORE steps. -/
theorem running_of_step (h : step s = .next t) : s.running := by
  cases hs : s.fault with
  | none => exact hs
  | some cause => cases (step_of_fault hs).symm.trans h

/-- R118, R119: a step that answers a next state has raised one fault, or has executed an instruction without one and
completed it. -/
theorem step_raises_or_completes (h : step s = .next t) :
    (∃ f, t = s.takeKeys.raise f) ∨
    (∃ i u, s.fetches i ∧ exec i s.takeKeys = .next u ∧ u.fault = none ∧ t = u.complete) := by
  have hrun : s.takeKeys.fault = none := s.takeKeys_fault.trans (running_of_step h)
  rcases step_cases s with ⟨_, _, e⟩ | ⟨_, _, e⟩ | ⟨i, u, hfetch, hu, e⟩ <;> cases e.symm.trans h
  · exact .inl ⟨_, rfl⟩
  · rcases exec_raises_or_keeps_fault hu with ⟨f, rfl⟩ | hkeep
    · exact .inl ⟨f, State.complete_of_fault (Option.some_ne_none f)⟩
    · exact .inr ⟨i, u, hfetch, hu, hkeep.trans hrun, rfl⟩

/-! ## The timers -/

/-- R31, R233: no instruction writes the sound timer. -/
theorem exec_st (h : exec i s = .next t) : t.st = s.st := by
  obtain ⟨_, _, _, _, _, _, _, _, _, hst, _⟩ := stateIsWrittenOnlyByItsOwners i s t h
  exact hst

/-- R31, R232: only SetDelay writes the delay timer. -/
theorem exec_dt_of_ne_setDelay (h : exec i s = .next t) (hi : ∀ x, i ≠ .setDelay x) : t.dt = s.dt := by
  obtain ⟨_, _, _, _, _, _, _, hdt, _⟩ := stateIsWrittenOnlyByItsOwners i s t h
  by_contra hne
  obtain ⟨x, hx⟩ := hdt hne
  exact hi x hx

/-- The countdown as R119 words it: 0 stays 0. -/
theorem countDown_eq_ite (b : Byte) : countDown b = if b.toNat = 0 then 0 else b - 1 := by
  rw [countDown]
  split <;> split
  · omega
  · rfl
  · bv_omega
  · omega

theorem State.complete_st_toNat (h : s.fault = none) : s.complete.st.toNat = s.st.toNat - 1 := by
  rw [State.complete_of_running h]
  exact countDown_toNat s.st

theorem State.complete_dt_toNat (h : s.fault = none) : s.complete.dt.toNat = s.dt.toNat - 1 := by
  rw [State.complete_of_running h]
  exact countDown_toNat s.dt

/-- R119: a step without a fault counts the sound timer down. -/
theorem step_st_toNat (h : step s = .next t) (hfault : t.fault = none) : t.st.toNat = s.st.toNat - 1 := by
  rcases step_raises_or_completes h with ⟨f, rfl⟩ | ⟨i, u, _, hu, hok, rfl⟩
  · cases hfault
  · rw [State.complete_st_toNat hok, exec_st hu, State.takeKeys_st]

/-! ## One step -/

/-- Settles O8. -/
theorem haltedCoreTakesNoStep : Obligations.HaltedCoreTakesNoStep := fun _ _ => step_of_fault

/-- Settles O9: what the step answers is a raise. -/
theorem fetchOutsideMemoryRaises : Obligations.FetchOutsideMemoryRaises := fun _ hrun hpc =>
  ⟨_, step_of_fetch_outside hrun (Nat.lt_of_succ_lt_succ hpc), State.raise_fault _ _, State.raise_frame _ _⟩

/-- Settles O14: the catch-all is a raise. -/
theorem notImplementedRaisesItsWord : Obligations.NotImplementedRaisesItsWord := fun op s =>
  ⟨_, exec_notImplemented s op, State.raise_fault _ _, State.raise_frame _ _⟩

/-- Settles O7: the step is the execute and its completion, which does nothing after a fault. -/
theorem stepRunsTheDecodedInstruction : Obligations.StepRunsTheDecodedInstruction := by
  intro s t i hfetch ht
  have hstep := step_of_fetches hfetch ht
  refine ⟨fun hfault => ?raised, fun hok => ?completed⟩
  case raised => rwa [State.complete_of_fault hfault] at hstep
  case completed =>
    rw [hstep, State.complete_of_running hok, State.timerUpdate, countDown_eq_ite, countDown_eq_ite]

/-- Settles O11: a step that leaves a fault is a raise, since an execute that completes leaves none. -/
theorem faultingStepWritesOnlyTheLatch : Obligations.FaultingStepWritesOnlyTheLatch := by
  intro s t _ h hfault
  rcases step_raises_or_completes h with ⟨f, rfl⟩ | ⟨i, u, _, _, hok, rfl⟩
  · exact State.raise_frame _ f
  · exact absurd (u.complete_fault.trans hok) hfault

/-- Settles O12: the instruction leaves ST alone, and DT too unless it is SetDelay; the completion then counts both down. -/
theorem successfulStepCountsBothTimersDown : Obligations.SuccessfulStepCountsBothTimersDown := by
  intro s t i hfetch h hfault
  refine ⟨step_st_toNat h hfault, ?_⟩
  obtain ⟨u, hu⟩ := exec_next i s.takeKeys
  cases (step_of_fetches hfetch hu).symm.trans h
  have hok : u.fault = none := u.complete_fault.symm.trans hfault
  rw [State.complete_dt_toNat hok]
  cases i with
  | setDelay x =>
    cases hu
    simp [State.reg]
  | _ => rw [exec_dt_of_ne_setDelay hu (by simp), State.takeKeys_dt]

/-! ## Runs -/

/-- A run of one more step is a step and then the rest of the run. -/
theorem exists_step_of_run_succ {M : Host.Core} {k : Nat} {s t : M.State} (h : M.run (k + 1) s = .next t) :
    ∃ u, M.step s = .next u ∧ M.run k u = .next t := by
  rw [Host.Core.run] at h
  split at h
  next u hu => exact ⟨u, hu, h⟩
  next => cases h
  next => cases h

/-- R121: a run from a halted CORE has no step. -/
theorem run_length_of_fault {k : Nat} (h : core.run k s = .next t) (hfault : s.fault ≠ none) : k = 0 := by
  cases k with
  | zero => rfl
  | succ k =>
    obtain ⟨u, hu, _⟩ := exists_step_of_run_succ h
    exact absurd (running_of_step hu) hfault

/-- R121: a run that ends without a fault began without one. -/
theorem running_of_run {k : Nat} (h : core.run k s = .next t) (hfault : t.fault = none) : s.fault = none := by
  by_contra hs
  cases run_length_of_fault h hs
  cases h
  exact hs hfault

/-- R119: a run of `k` steps that ends without a fault counts the sound timer down `k` times. -/
theorem run_st_toNat {k : Nat} (h : core.run k s = .next t) (hfault : t.fault = none) : t.st.toNat = s.st.toNat - k := by
  induction k generalizing s with
  | zero => cases h; rfl
  | succ k ih =>
    obtain ⟨u, hu, hrest⟩ := exists_step_of_run_succ h
    have hfirst : u.st.toNat = s.st.toNat - 1 := step_st_toNat hu (running_of_run hrest hfault)
    rw [ih hrest, hfirst, Nat.sub_sub, Nat.add_comm]

/-- Settles O50. -/
theorem soundTimerCountsTheStepsOfARun : Obligations.SoundTimerCountsTheStepsOfARun :=
  fun _ _ _ h => ⟨run_st_toNat h, run_length_of_fault h⟩

end Sys2Proof.Machine
end

section
/-! Control flow (spec/41_control_flow.md R140 to R145): what Return and Call answer when the slot they use is named, and
what they, Jump and the skips leave unchanged. -/

namespace Sys2Proof.Machine

variable {s : State} {k : Fin 16}

/-! ## What each instruction answers -/

/-- R140: Return with slot `k` as the last live one pops that slot. -/
theorem exec_ret_of_sp_eq_succ (hsp : s.sp.val = k.val + 1) :
    exec .ret s = .next (({ s with sp := k.castSucc } : State).setPc s.stack[k.val]) := by
  have hpop := Transition.exec_eq (s := s) (.ret (by omega))
  simp only [hsp, Nat.add_sub_cancel] at hpop
  exact hpop

/-- R142: Call with slot `k` as the next free one writes its own address there. -/
theorem exec_call_of_sp_eq (nnn : Addr12) (hsp : s.sp.val = k.val) :
    exec (.call nnn) s =
      .next (({ s with stack := s.stack.set k.val s.pc, sp := k.succ } : State).setPc (zext16 nnn)) := by
  have hpush := Transition.exec_eq (s := s) (.call nnn (by omega))
  simp only [hsp] at hpush
  exact hpush

/-- R140, D4: Return with an empty stack raises. -/
theorem exec_ret_of_sp_eq_zero (hsp : s.sp.val = 0) : exec .ret s = .next (s.raise .stackUnderflow) :=
  exec_of_faultOf (if_pos hsp)

/-- R142, D4: Call with a full stack raises. -/
theorem exec_call_of_sp_eq_sixteen (nnn : Addr12) (hsp : s.sp.val = 16) :
    exec (.call nnn) s = .next (s.raise .stackOverflow) :=
  exec_of_faultOf (if_pos hsp)

/-- R82: zero extension keeps the value of the address field. -/
theorem zext16_toNat (nnn : Addr12) : (zext16 nnn).toNat = nnn.toNat :=
  BitVec.toNat_setWidth_of_le (by decide)

/-! ## Frames -/

/-- R117: a jump touches the PC alone. -/
theorem setPc_frame (s : State) (w : Word) : Frame { pc := true } s (s.setPc w) := by
  constructor <;> simp [State.loadByte]

/-- Moving SP and jumping touches those two alone; the stack slots keep their values (D13). -/
theorem setSp_setPc_frame (s : State) (sp' : Fin 17) (w : Word) :
    Frame { pc := true, sp := true } s (({ s with sp := sp' } : State).setPc w) := by
  constructor <;> simp [State.loadByte]

/-- Writing one stack slot, moving SP and jumping touches those three alone. -/
theorem setSlot_setSp_setPc_frame (s : State) (k : Fin 16) (a : Word) (sp' : Fin 17) (w : Word) :
    Frame { pc := true, sp := true, stack := fun j => j == k } s
      (({ s with stack := s.stack.set k.val a, sp := sp' } : State).setPc w) where
  stack j hj := Vector.getElem_set_ne k.isLt j.isLt fun e => beq_eq_false_iff_ne.1 hj (Fin.ext e.symm)
  __ := setSp_setPc_frame s sp' w

/-! ## The obligations -/

/-- Settles O18: the Call wrote its address to slot `k` and left SP one above it, so the Return pops that slot. -/
theorem returnGoesBackToTheCallItself : Obligations.ReturnGoesBackToTheCallItself := by
  intro nnn k s t u hsp hcall husp hslot
  cases (exec_call_of_sp_eq nnn hsp).symm.trans hcall
  have hpop := exec_ret_of_sp_eq_succ (s := u) (k := k) (congrArg Fin.val husp)
  have hpc : u.stack[k.val] = s.pc := hslot.trans (Vector.getElem_set_self _)
  exact ⟨_, hpop, hpc, Fin.ext hsp.symm, rfl⟩

/-- Settles O15. -/
theorem returnPopsThePc : Obligations.ReturnPopsThePc := fun s =>
  ⟨fun _ hsp => ⟨_, exec_ret_of_sp_eq_succ hsp, rfl, rfl, setSp_setPc_frame s _ _⟩,
   fun hsp => ⟨_, exec_ret_of_sp_eq_zero hsp, rfl, State.raise_frame s _⟩⟩

/-- Settles O16. -/
theorem jumpSetsThePc : Obligations.JumpSetsThePc := fun nnn s =>
  ⟨_, exec_jump nnn s, zext16_toNat nnn, setPc_frame s _⟩

/-- Settles O17. -/
theorem callPushesItsOwnAddress : Obligations.CallPushesItsOwnAddress := fun nnn s =>
  ⟨fun k hsp => ⟨_, exec_call_of_sp_eq nnn hsp, Vector.getElem_set_self _, rfl, zext16_toNat nnn,
    setSlot_setSp_setPc_frame s k _ _ _⟩,
   fun hsp => ⟨_, exec_call_of_sp_eq_sixteen nnn hsp, rfl, State.raise_frame s _⟩⟩

/-- Settles O19: the skip's condition is the equality. -/
theorem skipIfEqualSkipsOnEquality : Obligations.SkipIfEqualSkipsOnEquality := fun x kk s =>
  ⟨_, exec_skipIfEqual x kk s, fun heq => if_pos (beq_iff_eq.2 heq), fun hne => if_neg (mt beq_iff_eq.1 hne),
    skipIf_frame s _⟩

/-- Settles O20: the skip's condition is the difference. -/
theorem skipIfNotEqualSkipsOnDifference : Obligations.SkipIfNotEqualSkipsOnDifference := fun x kk s =>
  ⟨_, exec_skipIfNotEqual x kk s, fun hne => if_pos (bne_iff_ne.2 hne),
    fun heq => if_neg fun hbne => bne_iff_ne.1 hbne heq, skipIf_frame s _⟩

end Sys2Proof.Machine
end

section
/-! Registers and arithmetic (spec/42_register_alu.md R160 to R166): what the registers hold after the one or two register
writes of an instruction, and the ALU results and flags as numbers. -/

namespace Sys2Proof.Machine

variable (s : State) (x : Nibble) (b flag : Byte)

/-! ## What the registers hold after an instruction's writes -/

/-- R23: the one register write of an instruction is what the register holds. -/
theorem setReg_advance_getElem : (s.setReg x b).advance.v[x.val] = b := Vector.getElem_set_self _

/-- D7: the flag is written last, so it is what VF holds, for x = 15 too. -/
theorem setReg_setFlag_advance_getElem_vf : ((s.setReg x b).setFlag flag).advance.v[15] = flag :=
  Vector.getElem_set_self _

/-- The flag's write leaves the result in every register but VF. -/
theorem setReg_setFlag_advance_getElem {x : Nibble} (hx : x ≠ 15) :
    ((s.setReg x b).setFlag flag).advance.v[x.val] = b :=
  (Vector.getElem_set_ne (by decide) x.isLt fun e => hx (Fin.ext e.symm)).trans (setReg_advance_getElem s x b)

/-! ## Results and flags as numbers (R32) -/

theorem flagByte_toNat (p : Prop) [Decidable p] : (flagByte p).toNat = if p then 1 else 0 := by
  by_cases hp : p <;> simp [flagByte, hp]

/-- R164: the carry is 1 when the exact sum exceeds 255. -/
theorem carryFlag_toNat (a b : Byte) : (carryFlag a b).toNat = if a.toNat + b.toNat > 255 then 1 else 0 :=
  flagByte_toNat _

/-- R165: the comparison of Sub is strict. -/
theorem greaterFlag_toNat (a b : Byte) : (greaterFlag a b).toNat = if a.toNat > b.toNat then 1 else 0 :=
  flagByte_toNat _

/-- R165: a difference of bytes is the exact difference, negative or not, mod 256. -/
theorem byte_sub_toNat (a b : Byte) : ((a - b).toNat : Int) = ((a.toNat : Int) - b.toNat) % 256 := by
  have := b.isLt
  rw [BitVec.toNat_sub]
  omega

/-! ## The obligations -/

/-- Settles O21. -/
theorem loadConstantWritesTheConstant : Obligations.LoadConstantWritesTheConstant := fun x kk s =>
  ⟨_, exec_loadConstant x kk s, setReg_advance_getElem s x kk, rfl, setReg_advance_frame s x kk⟩

/-- Settles O22: the sum of two bytes wraps, and it is the only register write. -/
theorem addConstantWrapsWithoutCarry : Obligations.AddConstantWrapsWithoutCarry := fun x kk s => by
  refine ⟨_, exec_addConstant x kk s, ?_, rfl, setReg_advance_frame s x _⟩
  rw [setReg_advance_getElem]
  exact BitVec.toNat_add _ _

/-- Settles O23. -/
theorem loadCopiesTheRegister : Obligations.LoadCopiesTheRegister := fun x y s =>
  ⟨_, exec_load x y s, setReg_advance_getElem s x _, rfl, setReg_advance_frame s x _⟩

/-- Settles O24. -/
theorem andIsBitwise : Obligations.AndIsBitwise := fun x y s => by
  refine ⟨_, exec_and x y s, fun k => ?_, rfl, setReg_advance_frame s x _⟩
  rw [setReg_advance_getElem]
  exact BitVec.getLsbD_and

/-- Settles O25: the sum is what V[x] holds when x is not VF, the carry is what VF holds. -/
theorem addWritesSumThenCarry : Obligations.AddWritesSumThenCarry := fun x y s => by
  refine ⟨_, exec_add x y s, fun hx => ?sum, ?carry, rfl, setReg_setFlag_advance_frame s x _ _⟩
  case sum =>
    rw [setReg_setFlag_advance_getElem s _ _ hx]
    exact BitVec.toNat_add _ _
  case carry =>
    rw [setReg_setFlag_advance_getElem_vf]
    exact carryFlag_toNat _ _

/-- Settles O26: the difference is what V[x] holds when x is not VF, the comparison is what VF holds. -/
theorem subWritesDifferenceThenGreater : Obligations.SubWritesDifferenceThenGreater := fun x y s => by
  refine ⟨_, exec_sub x y s, fun hx => ?difference, ?greater, rfl, setReg_setFlag_advance_frame s x _ _⟩
  case difference =>
    rw [setReg_setFlag_advance_getElem s _ _ hx]
    exact byte_sub_toNat _ _
  case greater =>
    rw [setReg_setFlag_advance_getElem_vf]
    exact greaterFlag_toNat _ _

/-- Settles O27: the step's random byte is left free, so this holds for each of its values. -/
theorem randomAndMasksTheRandomByte : Obligations.RandomAndMasksTheRandomByte := fun x kk s => by
  refine ⟨_, exec_randomAnd x kk s, fun k => ?_, rfl, setReg_advance_frame s x _⟩
  rw [setReg_advance_getElem]
  exact BitVec.getLsbD_and

end Sys2Proof.Machine
end

section
/-! Index register and memory (spec/43_address_memory.md R190 to R199): what SetBCD and LoadRegisters answer in terms of
their bounds, the values written to I and to memory as numbers, and what each of the four leaves unchanged. -/

namespace Sys2Proof.Machine

variable {s : State} {x : Nibble}

/-! ## Values as numbers -/

/-- R193, D11: the font address is the exact product, which 16 bits hold for every byte. -/
theorem fontAddr_toNat (a : Byte) : (fontAddr a).toNat = a.toNat * 5 := by
  have ha := a.isLt
  have h16 : (a.setWidth 16).toNat = a.toNat := BitVec.toNat_setWidth_of_le (by decide)
  rw [fontAddr, BitVec.toNat_mul, h16]
  exact Nat.mod_eq_of_lt (show a.toNat * 5 < 2 ^ 16 by omega)

theorem bcdHundreds_toNat (v : Byte) : (bcdHundreds v).toNat = v.toNat / 100 :=
  Nat.mod_eq_of_lt (by have := v.isLt; omega)

theorem bcdTens_toNat (v : Byte) : (bcdTens v).toNat = v.toNat % 100 / 10 :=
  Nat.mod_eq_of_lt (by omega)

theorem bcdOnes_toNat (v : Byte) : (bcdOnes v).toNat = v.toNat % 10 :=
  Nat.mod_eq_of_lt (by omega)

/-! ## What SetBCD and LoadRegisters answer -/

/-- R196: the three bytes SetBCD writes, in the order of their addresses. -/
def bcdDigits (v : Byte) : List Byte := [bcdHundreds v, bcdTens v, bcdOnes v]

@[simp] theorem bcdDigits_length (v : Byte) : (bcdDigits v).length = 3 := rfl

/-- R196: inside memory, SetBCD writes its digits as one block at I. -/
theorem exec_setBCD_of_le (h : s.i.toNat ≤ 0xFFD) : exec (.setBCD x) s =
    .next ({ s with mem := Memory.writeBlock s.mem s.i.toNat (bcdDigits (s.reg x)) } : State).advance :=
  Transition.exec_eq (.setBCD x (by omega))

/-- R196, D3: past memory, SetBCD raises. -/
theorem exec_setBCD_of_gt (h : s.i.toNat > 0xFFD) :
    exec (.setBCD x) s = .next (s.raise (.memoryOutOfBounds (BitVec.ofNat 16 (s.i.toNat + 2)))) :=
  exec_of_faultOf (if_pos (by omega))

/-- R199: inside memory, LoadRegisters loads the block at I. -/
theorem exec_loadRegisters_of_le (h : s.i.toNat + x.val ≤ 0xFFF) : exec (.loadRegisters x) s =
    .next ({ s with v := loadBlock s.mem s.i.toNat (x.val + 1) s.v } : State).advance :=
  Transition.exec_eq (.loadRegisters x (by omega))

/-- R199, D3: past memory, LoadRegisters raises. -/
theorem exec_loadRegisters_of_gt (h : s.i.toNat + x.val > 0xFFF) :
    exec (.loadRegisters x) s = .next (s.raise (.memoryOutOfBounds (BitVec.ofNat 16 (s.i.toNat + x.val)))) :=
  exec_of_faultOf (if_pos (by omega))

/-! ## Frames -/

/-- Writing I and advancing touches I and the PC alone. -/
theorem setIndex_advance_frame (s : State) (w : Word) :
    Frame { index := true, pc := true } s (s.setIndex w).advance where
  index := nofun
  __ := setPc_frame s (s.pc + 2)

/-- D12: writing the digits at I and advancing touches those three bytes and the PC alone. -/
theorem writeBlock_bcdDigits_advance_frame (s : State) (v : Byte) :
    Frame { pc := true, mem := fun a => s.dataAddr 0 ≤ a && a ≤ s.dataAddr 2 } s
      ({ s with mem := Memory.writeBlock s.mem s.i.toNat (bcdDigits v) } : State).advance where
  mem a ha := by
    have hout : ¬ (s.dataAddr 0 ≤ a ∧ a ≤ s.dataAddr 2) := by simpa using ha
    refine Memory.read_writeBlock_other s.mem s.i.toNat (bcdDigits v) ?_
    simp only [State.dataAddr, bcdDigits_length] at hout ⊢
    omega
  __ := setPc_frame s (s.pc + 2)

/-- D12: loading a block up to V[x] and advancing touches those registers and the PC alone. -/
theorem loadBlock_advance_frame (s : State) (base : Nat) (x : Nibble) :
    Frame { regs := fun r => r.val ≤ x.val, pc := true } s
      ({ s with v := loadBlock s.mem base (x.val + 1) s.v } : State).advance where
  regs r hr := by
    have hlast : ¬ r.val ≤ x.val := of_decide_eq_false hr
    exact (loadBlock_get s.mem base (x.val + 1) s.v r).trans (if_neg (by omega))
  __ := setPc_frame s (s.pc + 2)

/-! ## The obligations -/

/-- Settles O28: zero extension keeps the value of the address field. -/
theorem setAddressWritesTheIndex : Obligations.SetAddressWritesTheIndex := fun nnn s =>
  ⟨_, exec_setAddress nnn s, zext16_toNat nnn, rfl, setIndex_advance_frame s _⟩

/-- Settles O29: the product of a byte and 5 does not wrap at 16 bits. -/
theorem setFontLocationMultipliesByFive : Obligations.SetFontLocationMultipliesByFive := fun x s =>
  ⟨_, exec_setFontLocation x s, fontAddr_toNat _, rfl, setIndex_advance_frame s _⟩

/-- Settles O30: inside memory the digits are written as one block, which is read back byte for byte. -/
theorem setBCDStoresTheDecimalDigits : Obligations.SetBCDStoresTheDecimalDigits := by
  intro x s hwf
  obtain ⟨hsorted, -⟩ := hwf
  have hread := Memory.read_writeBlock_inside hsorted s.i.toNat (bcdDigits (s.reg x))
  refine ⟨fun hin => ⟨_, exec_setBCD_of_le hin, ?hundreds, ?tens, ?ones, rfl, writeBlock_bcdDigits_advance_frame s _⟩,
    fun hout => ⟨_, exec_setBCD_of_gt hout, rfl, State.raise_frame s _⟩⟩
  case hundreds => exact (congrArg BitVec.toNat (hread 0 (by simp))).trans (bcdHundreds_toNat _)
  case tens => exact (congrArg BitVec.toNat (hread 1 (by simp))).trans (bcdTens_toNat _)
  case ones => exact (congrArg BitVec.toNat (hread 2 (by simp))).trans (bcdOnes_toNat _)

/-- Settles O31: inside memory each register up to V[x] takes its byte of the block. -/
theorem loadRegistersLoadsTheBlock : Obligations.LoadRegistersLoadsTheBlock := fun x s =>
  ⟨fun hin => ⟨_, exec_loadRegisters_of_le hin,
    fun k hk => (loadBlock_get s.mem s.i.toNat (x.val + 1) s.v k).trans (if_pos (Nat.lt_succ_of_le hk)), rfl,
    loadBlock_advance_frame s _ x⟩,
   fun hout => ⟨_, exec_loadRegisters_of_gt hout, rfl, State.raise_frame s _⟩⟩

end Sys2Proof.Machine
end

section
/-! Draw (spec/44_draw.md R210 to R213): each cell and VF after a Draw that completes, in terms of the cells its sprite puts
a 1 on, and what it leaves unchanged. -/

namespace Sys2Proof.Machine

/-! ## The cells of a sprite -/

theorem eq_pixelRow_iff {r : Fin 32} {yc : Byte} {i : Nat} : r = pixelRow yc i ↔ r.val = (yc.toNat + i) % 32 := Fin.ext_iff

theorem eq_pixelCol_iff {c : Fin 64} {xc : Byte} {j : Nat} : c = pixelCol xc j ↔ c.val = (xc.toNat + j) % 64 := Fin.ext_iff

/-- Two memories with the same sprite bytes put a 1 on the same cells. -/
theorem spriteCovers_congr {m m' : Memory} {base base' n : Nat} (xc yc : Byte) (r : Fin 32) (c : Fin 64)
    (hbytes : ∀ k < n, Memory.read m' (base' + k) = Memory.read m (base + k)) :
    spriteCovers m' base' xc yc n r c ↔ spriteCovers m base xc yc n r c :=
  exists_congr fun i => and_congr_right fun hi => by rw [hbytes i hi]

/-- The cells that the sprite of `draw x y n` in `s` puts a 1 on. -/
abbrev State.drawCovers (s : State) (x y n : Nibble) (r : Fin 32) (c : Fin 64) : Prop :=
  spriteCovers s.mem s.i.toNat (s.reg x) (s.reg y) n.val r c

/-- R212: no two pixels of a sprite share a cell, so what the sprite puts on the cell of a pixel is that pixel's bit. -/
theorem State.drawCovers_pixel_iff (s : State) (x y : Nibble) {n : Nibble} {i j : Nat} (hi : i < n.val) (hj : j < 8) :
    s.drawCovers x y n (pixelRow s.v[y.val] i) (pixelCol s.v[x.val] j) ↔
      (s.loadByte (s.i.toNat + i)).getLsbD (7 - j) = true := by
  constructor
  · rintro ⟨i', hi', hrow, j', hj', hcol, hbit⟩
    cases pixelRow_inj _ (by omega) (by omega) hrow
    cases pixelCol_inj _ hj hj' hcol
    exact hbit
  · exact fun hbit => ⟨i, hi, rfl, j, hj, rfl, hbit⟩

/-! ## What Draw answers -/

theorem collisionFlag_eq_one_iff (hit : Bool) : collisionFlag hit = 1 ↔ hit = true := by
  cases hit <;> decide

theorem collisionFlag_eq_one_or_zero (hit : Bool) : collisionFlag hit = 1 ∨ collisionFlag hit = 0 := by
  cases hit <;> decide

/-- Writing the framebuffer and VF and advancing touches those two and the PC alone. -/
theorem setFb_setFlag_advance_frame (s : State) (fb : Framebuffer) (flag : Byte) :
    Frame { regs := fun r => r == 15, display := true, pc := true } s (({ s with fb := fb } : State).setFlag flag).advance where
  regs := (setReg_advance_frame s 15 flag).regs
  display := nofun
  __ := setPc_frame s (s.pc + 2)

/-- R210, D3: past memory, Draw raises. -/
theorem exec_draw_of_gt (x y : Nibble) {n : Nibble} {s : State} (hn : 0 < n.val) (h : s.i.toNat + n.val > 4096) :
    exec (.draw x y n) s = .next (s.raise (.memoryOutOfBounds (BitVec.ofNat 16 (s.i.toNat + n.val - 1)))) :=
  exec_of_faultOf (if_pos ⟨hn, h⟩)

section Completes
/-! A Draw that completes. -/

variable {x y n : Nibble} {s t : State} (hb : n.val = 0 ∨ s.i.toNat + n.val ≤ 4096) (h : exec (.draw x y n) s = .next t)
include hb h

/-- R210, D8: the state it answers, from the registers before VF is written. -/
theorem draw_result : t =
    (({ s with fb := (drawRows s.mem s.i.toNat (s.reg x) (s.reg y) n.val (s.fb, false)).1 } : State).setFlag
      (collisionFlag (drawRows s.mem s.i.toNat (s.reg x) (s.reg y) n.val (s.fb, false)).2)).advance := by
  cases (Transition.exec_eq (.draw x y n hb)).symm.trans h
  rfl

/-- R212: a cell is flipped exactly when the sprite puts a 1 on it. -/
theorem draw_cell (r : Fin 32) (c : Fin 64) :
    t.fb.cell r c = (s.fb.cell r c ^^ decide (s.drawCovers x y n r c)) := by
  cases draw_result hb h
  exact drawRows_cell s.mem s.i.toNat _ _ n.is_le (s.fb, false) r c

/-- VF is the collision flag, so 1 or 0. -/
theorem draw_vf_eq_one_or_zero : t.v[15] = 1 ∨ t.v[15] = 0 := by
  cases draw_result hb h
  rw [State.advance_v, State.setFlag_v, Vector.getElem_set_self]
  exact collisionFlag_eq_one_or_zero _

/-- R212: VF is 1 exactly when some cell that held 1 received a 1. -/
theorem draw_vf_eq_one_iff : t.v[15] = 1 ↔ ∃ r c, s.drawCovers x y n r c ∧ s.fb.cell r c = true := by
  cases draw_result hb h
  rw [State.advance_v, State.setFlag_v, Vector.getElem_set_self, collisionFlag_eq_one_iff, drawRows_hit _ _ _ _ n.is_le]
  exact or_iff_right Bool.false_ne_true

/-- R210's flag line: VF is 1 exactly when some cell goes from 1 to 0. -/
theorem draw_vf_eq_one_iff_turned_off :
    t.v[15] = 1 ↔ ∃ r c, s.fb.cell r c = true ∧ t.fb.cell r c = false := by
  rw [draw_vf_eq_one_iff hb h]
  refine exists_congr fun r => exists_congr fun c => ?_
  rw [draw_cell hb h]
  cases s.fb.cell r c <;> simp

end Completes

/-! ## The obligations -/

/-- Settles O33: what Draw answers is a raise. -/
theorem drawOutsideMemoryRaises : Obligations.DrawOutsideMemoryRaises := fun x y _ s hn hout =>
  ⟨_, exec_draw_of_gt x y hn hout, State.raise_fault s _, State.raise_frame s _⟩

/-- Settles O32: a cell is flipped when the sprite puts a 1 on it, so by its pixel's bit when it has a pixel and not at all
when it has none. -/
theorem drawXorsTheSpriteAndReportsCollision : Obligations.DrawXorsTheSpriteAndReportsCollision := by
  intro x y n s hb
  obtain ⟨t, ht⟩ := exec_next (.draw x y n) s
  have hcell := draw_cell hb ht
  refine ⟨t, ht, ?inside, ?outside, draw_vf_eq_one_or_zero hb ht, ?collision, ?pc, ?frame⟩
  case inside =>
    intro i j hi hj r c hr hc
    cases eq_pixelRow_iff.2 hr
    cases eq_pixelCol_iff.2 hc
    rw [hcell, Bool.decide_congr (s.drawCovers_pixel_iff x y hi hj), Bool.decide_eq_true]
  case outside =>
    intro r c hout
    have hcov : ¬ s.drawCovers x y n r c := by
      rintro ⟨i, hi, hr, j, hj, hc, _⟩
      exact hout i j hi hj ⟨eq_pixelRow_iff.1 hr, eq_pixelCol_iff.1 hc⟩
    rw [hcell, decide_eq_false hcov, Bool.xor_false]
  case collision =>
    rw [draw_vf_eq_one_iff hb ht]
    constructor
    · rintro ⟨r, c, ⟨i, hi, hr, j, hj, hc, hbit⟩, hon⟩
      exact ⟨i, j, r, c, hi, hj, eq_pixelRow_iff.1 hr, eq_pixelCol_iff.1 hc, hon, hbit⟩
    · rintro ⟨i, j, r, c, hi, hj, hr, hc, hon, hbit⟩
      exact ⟨r, c, ⟨i, hi, eq_pixelRow_iff.2 hr, j, hj, eq_pixelCol_iff.2 hc, hbit⟩, hon⟩
  case pc =>
    cases draw_result hb ht
    rfl
  case frame =>
    cases draw_result hb ht
    exact setFb_setFlag_advance_frame s _ _

/-- Settles O34: both Draws put a 1 on the same cells, so each cell is flipped twice or not at all. -/
theorem drawingTwiceRestoresTheDisplay : Obligations.DrawingTwiceRestoresTheDisplay := by
  intro x y x' y' n s t u w hbs hbu ht hfb hx hy hbytes hw
  have hcovers (r : Fin 32) (c : Fin 64) : u.drawCovers x' y' n r c ↔ s.drawCovers x y n r c := by
    have hx' : u.reg x' = s.reg x := hx
    have hy' : u.reg y' = s.reg y := hy
    rw [State.drawCovers, hx', hy']
    exact spriteCovers_congr _ _ r c hbytes
  refine ⟨Framebuffer.ext_cell fun r c => ?_, hfb ▸ draw_vf_eq_one_iff_turned_off hbu hw⟩
  rw [draw_cell hbu hw, hfb, draw_cell hbs ht, Bool.decide_congr (hcovers r c), Bool.xor_assoc, Bool.xor_self,
    Bool.xor_false]

/-- A one-pixel sprite at I (R210's example), and on the display the one cell it is drawn on. -/
def litPixel : State :=
  { State.reset with i := 0x300, mem := [(0x300, 0x80)], fb := State.reset.fb.setCell 0 0 true }

/-- Refutes O35: the first Draw turns `litPixel`'s one cell off, so the second turns it on again and sees no collision. -/
theorem not_secondDrawCollidesWheneverTheSpriteHasAOneBit :
    ¬ Obligations.SecondDrawCollidesWheneverTheSpriteHasAOneBit := by
  intro h
  have hvf := h 0 1 1 litPixel _ _ (by decide) (by decide) (by decide) rfl rfl
  have hsprite : (litPixel.loadByte 0x300).getLsbD 7 = true := by decide
  exact absurd (hvf.2 ⟨0, 0, by decide, by decide, hsprite⟩) (by decide)

end Sys2Proof.Machine
end

section
/-! Keys and timers (spec/45_input_timer.md R230 to R233): SkipIfNotPressed, LoadDelay and SetDelay, LoadDelay over a whole
step, and the sound timer, which no instruction reads. -/

namespace Sys2Proof.Machine

/-- R232: SetDelay touches the delay timer and the PC alone. -/
theorem setDelayTimer_advance_frame (s : State) (b : Byte) :
    Frame { delay := true, pc := true } s (s.setDelayTimer b).advance where
  delay := nofun
  __ := setPc_frame s (s.pc + 2)

/-- Settles O36: the skip's condition is that the key is released. -/
theorem skipIfNotPressedTestsTheKey : Obligations.SkipIfNotPressedTestsTheKey := fun x s =>
  ⟨_, exec_skipIfNotPressed x s, fun hreleased => if_pos (congrArg not hreleased),
    fun hpressed => if_neg (Bool.eq_false_iff.1 (congrArg not hpressed)), skipIf_frame s _⟩

/-- Settles O37. -/
theorem loadDelayReadsTheTimer : Obligations.LoadDelayReadsTheTimer := fun x s =>
  ⟨_, exec_loadDelay x s, setReg_advance_getElem s x s.dt, rfl, setReg_advance_frame s x s.dt⟩

/-- Settles O38: the instruction reads the timer that the host's key write left alone, and the completion, which counts it
down, comes after. -/
theorem loadDelayStepReadsBeforeTheDecrement : Obligations.LoadDelayStepReadsBeforeTheDecrement := by
  intro x s hfetch
  have ⟨hrun, _⟩ := hfetch
  have hok : (s.takeKeys.setReg x s.takeKeys.dt).advance.fault = none := s.takeKeys_fault.trans hrun
  refine ⟨_, step_of_fetches hfetch (exec_loadDelay x s.takeKeys), ?register, ?timer, ?pc⟩
  case register => rw [State.complete_v, setReg_advance_getElem, State.takeKeys_dt]
  case timer =>
    rw [State.complete_dt_toNat hok]
    exact congrArg (·.toNat - 1) s.takeKeys_dt
  case pc =>
    rw [State.complete_pc]
    exact congrArg (· + 2) s.takeKeys_pc

/-- Settles O39. -/
theorem setDelayWritesTheTimer : Obligations.SetDelayWritesTheTimer := fun x s =>
  ⟨_, exec_setDelay x s, rfl, rfl, setDelayTimer_advance_frame s _⟩

/-- Settles O41: the instruction's check does not read ST, so the same transition is open in both states, and what it writes
is computed from the other elements. -/
theorem soundTimerIsReadByNoInstruction : Obligations.SoundTimerIsReadByNoInstruction := by
  intro i s t z h
  cases Transition.of_exec h with
  | raise hf => exact exec_of_faultOf ((faultOf_congr rfl rfl i).trans hf)
  | ret hsp => exact Transition.exec_eq (.ret (s := { s with st := z }) hsp)
  | call nnn hsp => exact Transition.exec_eq (.call (s := { s with st := z }) nnn hsp)
  | draw x y n hb => exact Transition.exec_eq (.draw (s := { s with st := z }) x y n hb)
  | setBCD x hb => exact Transition.exec_eq (.setBCD (s := { s with st := z }) x hb)
  | loadRegisters x hb => exact Transition.exec_eq (.loadRegisters (s := { s with st := z }) x hb)
  | _ => rfl

end Sys2Proof.Machine
end

section
/-! Exceptions and inputs (spec/60_exceptions.md R250 to R266): which fault a step latches, which inputs of the host it
uses up, and that the key flags reach one instruction alone. -/

namespace Sys2Proof.Machine

variable {s t : State} {i : Instr}

/-- R253: executing an instruction where no fault is latched leaves the fault of its one check, or none. -/
theorem exec_fault (hrun : s.fault = none) (h : exec i s = .next t) : t.fault = faultOf s i := by
  cases Transition.of_exec h with
  | raise hf => exact hf.symm
  | ret hsp => exact hrun.trans (if_neg hsp).symm
  | call nnn hsp => exact hrun.trans (if_neg hsp.ne).symm
  | draw x y n hb => exact hrun.trans (if_neg (by omega)).symm
  | setBCD x hb => exact hrun.trans (if_neg hb.not_gt).symm
  | loadRegisters x hb => exact hrun.trans (if_neg hb.not_gt).symm
  | _ => exact hrun

/-- R264, R266: no instruction writes the key flags or the two fields that hold the host's inputs. -/
theorem exec_inputs (h : exec i s = .next t) :
    t.keys = s.keys ∧ t.pendingKeys = s.pendingKeys ∧ t.rndIndex = s.rndIndex := by
  cases Transition.of_exec h <;> exact ⟨rfl, rfl, rfl⟩

/-- R264: the completion of an execute that raised no fault uses up one random byte. -/
theorem State.complete_rndIndex (h : s.fault = none) : s.complete.rndIndex = s.rndIndex + 1 := by
  rw [State.complete_of_running h]

/-- R266: a key write before an instruction that does not read the keys comes to the same as the write after it. -/
theorem Transition.writeKeys (h : Transition s i t) (hi : ∀ x, i ≠ .skipIfNotPressed x) (k : Keys) :
    Transition (s.writeKeys k) i (t.writeKeys k) := by
  cases h with
  | skipIfNotPressed x => exact absurd rfl (hi x)
  | raise hf => exact .raise (s := s.writeKeys k) ((faultOf_congr rfl rfl i).trans hf)
  | ret hsp => exact .ret (s := s.writeKeys k) hsp
  | call nnn hsp => exact .call (s := s.writeKeys k) nnn hsp
  | draw x y n hb => exact .draw (s := s.writeKeys k) x y n hb
  | setBCD x hb => exact .setBCD (s := s.writeKeys k) x hb
  | loadRegisters x hb => exact .loadRegisters (s := s.writeKeys k) x hb
  | _ => exact .of_exec rfl

/-- Settles O10: outside memory the fetch raises; inside, the completion keeps the fault of the decoded instruction's check,
which the host's key write before it cannot change. -/
theorem stepRaisesExactlyTheSpecifiedFault : Obligations.StepRaisesExactlyTheSpecifiedFault := by
  intro s hrun
  by_cases hpc : s.pc.toNat > 0xFFE
  · exact ⟨_, step_of_fetch_outside hrun hpc, (if_pos hpc).symm⟩
  · generalize hi : decodeWord (wordOfBytes (s.loadByte s.pc.toNat) (s.loadByte (s.pc.toNat + 1))) = i
    obtain ⟨u, hu⟩ := exec_next i s.takeKeys
    have hfault : u.complete.fault = faultOf s i := calc
      u.complete.fault = u.fault := u.complete_fault
      _ = faultOf s.takeKeys i := exec_fault (s.takeKeys_fault.trans hrun) hu
      _ = faultOf s i := faultOf_congr s.takeKeys_sp s.takeKeys_i i
    refine ⟨_, step_of_fetches ⟨hrun, Nat.le_of_not_gt hpc, hi⟩ hu, ?_⟩
    rw [if_neg hpc, hfault]
    cases i <;> rfl

/-- Settles O13: a step that raises comes after the host's key write alone; one that completes has executed an instruction,
which leaves the inputs as they are, and then counts one random byte. -/
theorem stepTakesOneKeyWriteAndOneRandomByte : Obligations.StepTakesOneKeyWriteAndOneRandomByte := by
  intro s t _ h
  rcases step_raises_or_completes h with ⟨f, rfl⟩ | ⟨i, u, _, hu, hok, rfl⟩
  · simp
  · obtain ⟨hkeys, hpending, hrnd⟩ := exec_inputs hu
    simp [State.complete_rndIndex hok, hok, hkeys, hpending, hrnd]

/-- Settles O42. -/
theorem onlySkipIfNotPressedReadsTheKeys : Obligations.OnlySkipIfNotPressedReadsTheKeys := fun _ _ _ k hi h =>
  ((Transition.of_exec h).writeKeys hi k).exec_eq

end Sys2Proof.Machine
end

section
/-! The program load (spec/70_reset_and_hazards.md R291, R292). -/

namespace Sys2Proof.Machine

/-- R291: a program of at most 3583 bytes is written as one block at 0x200. -/
theorem State.loadProgram_of_le (s : State) {bytes : List Byte} (h : bytes.length ≤ 3583) :
    s.loadProgram (some bytes) = .loaded { s with mem := Memory.writeBlock s.mem 0x200 bytes } := if_pos h

/-- R292, D15: a longer program is refused with its size. -/
theorem State.loadProgram_of_gt (s : State) {bytes : List Byte} (h : 3583 < bytes.length) :
    s.loadProgram (some bytes) = .sizeExceeded bytes.length := if_neg h.not_ge

/-- R292: a source that cannot be read fails. -/
theorem State.loadProgram_none (s : State) : s.loadProgram none = .programLoadFailed := rfl

/-- Writing a block touches the bytes of the block alone. -/
theorem writeBlock_frame (s : State) (base : Nat) (bytes : List Byte) :
    Frame { mem := fun a => base ≤ a && a < base + bytes.length } s
      { s with mem := Memory.writeBlock s.mem base bytes } where
  mem a ha := by
    have hout : ¬ (base ≤ a ∧ a < base + bytes.length) := by simpa using ha
    exact Memory.read_writeBlock_other s.mem base bytes (by omega)
  __ := Frame.refl _ s

/-- Settles O45: the load writes the program as one block, which is read back byte for byte since reset memory is sorted. -/
theorem programLoadCopiesTheBytes : Obligations.ProgramLoadCopiesTheBytes := fun bytes hlen =>
  ⟨_, State.reset.loadProgram_of_le hlen, Memory.read_writeBlock_inside Memory.wf_nil.1 0x200 bytes,
    writeBlock_frame State.reset 0x200 bytes⟩

/-- Settles O46. -/
theorem programLoadRefusesWhatDoesNotFit : Obligations.ProgramLoadRefusesWhatDoesNotFit :=
  ⟨fun _ hlen => State.reset.loadProgram_of_gt hlen, State.reset.loadProgram_none⟩

end Sys2Proof.Machine
end
